-- ==== Sys2Proof/Word.lean ====
section
/-! DEFINITION. The word and byte types of the block (spec/00_scope.md R9, R10, R17). -/

namespace Sys2Proof

/-- A 64-bit unsigned word: hash, table entry, seed, register, bit-array word (R9, R17, R24). -/
abbrev Word := BitVec 64

/-- A byte of the text buffer (R10). -/
abbrev Byte := BitVec 8

end Sys2Proof
end

