-- ==== Sys2Proof/Config.lean ====
section
/-! DEFINITION. What an implementation of the block fixes (spec/00_scope.md R13 to R16) and the model's free values. -/

namespace Sys2Proof

/-- The name of an implementation's generator step `XS` (R16). The function itself is
`Machine.xsOf`, so that the state that carries the name stays plain data.
PRESUMED (log 3) where `xs128p` is meant: spec/93_implementation_defined.md G1. -/
inductive Generator where
  /-- The default instance `XS128P` (spec/40_hash_table_generator.md R133). -/
  | xs128p
  /-- Any other step: an uninterpreted function, `Config.xsOther n`. -/
  | other (n : Nat)
  deriving DecidableEq, Repr

/-- The open parameters of an implementation with their ranges (R13 to R16). DESIGN CHOICE (log 1): they
ride in a field of the state that no step changes. -/
structure Params where
  /-- `CAPLOG2_MAX` (R13): the physical bit storage is `2^capLog2Max` bits. -/
  capLog2Max : Nat
  /-- `TXT_BYTES` (R14). -/
  txtBytes : Nat
  /-- `RES_ENTRIES` (R15). -/
  resEntries : Nat
  /-- `XS` (R16), by name. -/
  generator : Generator
  capLog2Max_ge : 6 ≤ capLog2Max
  capLog2Max_le : capLog2Max ≤ 63
  txtBytes_pos : 1 ≤ txtBytes
  txtBytes_le : txtBytes ≤ 2 ^ 63
  resEntries_pos : 1 ≤ resEntries
  resEntries_le : resEntries ≤ 2 ^ 61
  deriving DecidableEq, Repr

/-- The values the spec suggests for tests (R13 to R15) and its default `XS` (R133).
DESIGN CHOICE (log 2), PRESUMED for the generator (log 3). -/
def Params.suggested : Params where
  capLog2Max := 20
  txtBytes := 4096
  resEntries := 64
  generator := .xs128p
  capLog2Max_ge := by decide
  capLog2Max_le := by decide
  txtBytes_pos := by decide
  txtBytes_le := by decide
  resEntries_pos := by decide
  resEntries_le := by decide

/-- FREE VALUE (log 3): the generator step of an implementation that is not `XS128P`; of it the model
knows only that it is a function of its two arguments (R16, spec/93_implementation_defined.md U12). -/
opaque Config.xsOther : Nat → Word → Word → Word × Word

/-- FREE VALUE (log 4): the byte at an address of the text buffer that no host write has written since
reset number `resets`; one arbitrary but fixed byte per location (spec/93_implementation_defined.md U3). -/
opaque Config.unwrittenText (resets addr : Nat) : Byte

/-- FREE VALUE (log 7): field `field` of result record `index` where no SEARCH has written that record
since reset number `resets` (spec/10_state.md R47, R55). -/
opaque Config.unwrittenRecord (resets index field : Nat) : Word

end Sys2Proof
end

