-- ==== Sys2Proof/Syntax.lean ====
section
/-! DEFINITION. The instructions: one constructor per row of spec/opcode_table.json. The five commands take
their operands from ARG0 to ARG2 (spec/30_encoding.md R104, R105), so they carry none; a port transaction
carries the 64-bit address and, for a write, the 64-bit data (R110). -/

namespace Sys2Proof

/-- The commands (R102) and the port transactions (R110). -/
inductive Instr where
  /-- Write of 0x01 to CMD. -/
  | alloc
  /-- Write of 0x02 to CMD. -/
  | init
  /-- Write of 0x03 to CMD. -/
  | insert
  /-- Write of 0x04 to CMD. -/
  | search
  /-- Write of 0x05 to CMD. -/
  | release
  /-- Read of register number `addr`. -/
  | rdreg (addr : Word)
  /-- Write of `wdata` to register number `addr`; number 0 is CMD (here with a word that is no command). -/
  | wrreg (addr wdata : Word)
  /-- Read of the text-buffer byte at `addr`. -/
  | rdtxt (addr : Word)
  /-- Write of `wdata[7:0]` to the text-buffer byte at `addr`. -/
  | wrtxt (addr wdata : Word)
  /-- Read of field `addr[1:0]` of result record `addr >> 2`. -/
  | rdres (addr : Word)
  /-- Read of word `addr` of the bit array. -/
  | rdbits (addr : Word)
  /-- Read of entry `addr` of the byte-hash table. -/
  | rdtab (addr : Word)
  deriving DecidableEq, Repr

end Sys2Proof
end

