-- ==== Sys2Proof/WellFormed.lean ====
section
/-! DEFINITION. Which terms of Instr stand for a transaction in the one way the decoder gives (log 12). -/

namespace Sys2Proof

/-- A write of one of the five command words (1 to 5, spec/30_encoding.md R102) to CMD is the command itself,
never `wrreg`; every other term is well formed. The ranges of spec/opcode_table.json on `addr` are no
well-formedness: a transaction outside them is presented, decoded and answered FAULT (R207). -/
def Instr.wf : Instr → Bool
  | .wrreg addr wdata => !(addr == 0#64 && 1 ≤ wdata.toNat && wdata.toNat ≤ 5)
  | .alloc => true
  | .init => true
  | .insert => true
  | .search => true
  | .release => true
  | .rdreg _ => true
  | .rdtxt _ => true
  | .wrtxt _ _ => true
  | .rdres _ => true
  | .rdbits _ => true
  | .rdtab _ => true

end Sys2Proof
end

