-- ==== Sys2Proof/Decode.lean ====
section
/-! DEFINITION. The host-port transaction and its decoding into an instruction, total on every transaction and
rejecting by name (spec/20_memory.md R60, spec/30_encoding.md R100 to R103, R110), and the encoder. -/

namespace Sys2Proof

/-- One transaction of the host port (R60). The spec gives the tuple no layout in bytes (log 11). -/
structure Transaction where
  /-- 1 = write, 0 = read. -/
  we : Bool
  space : BitVec 3
  addr : Word
  /-- Ignored on a read. -/
  wdata : Word
  deriving DecidableEq, Repr

/-- The five commands of R102. -/
inductive Command where
  | alloc
  | init
  | insert
  | search
  | release
  deriving DecidableEq, Repr

/-- Why a transaction is no instruction of the table; the port answers it FAULT (R207). -/
inductive Reject where
  /-- Space 5, 6 or 7 (R65, fault P1). -/
  | reservedSpace
  /-- A write to space 2, 3 or 4 (R62 to R64, fault P6). -/
  | readOnlySpace
  deriving DecidableEq, Repr

/-- What the decoder answers. -/
inductive Decoded where
  | ok (i : Instr)
  | rejected (r : Reject)
  deriving DecidableEq, Repr

/-- The command a command word names; `none` is IllegalCommand (R101 to R103, R109). -/
def decodeCommand (cw : Word) : Option Command :=
  if cw.extractLsb' 8 56 ≠ 0#56 then none
  else
    match (cw.extractLsb' 0 8).toNat with
    | 1 => some .alloc
    | 2 => some .init
    | 3 => some .insert
    | 4 => some .search
    | 5 => some .release
    | _ => none

/-- The instruction a command is. -/
def Command.instr : Command → Instr
  | .alloc => .alloc
  | .init => .init
  | .insert => .insert
  | .search => .search
  | .release => .release

/-- Decoding of a register access (space 0): a CMD write of a command word is that command (R66, R100). -/
def decodeReg (we : Bool) (addr wdata : Word) : Instr :=
  if we then
    if addr = 0#64 then
      match decodeCommand wdata with
      | some c => c.instr
      | none => .wrreg addr wdata
    else .wrreg addr wdata
  else .rdreg addr

/-- Decoding of a transaction by its header `(we, space)` (R110). -/
def decode (t : Transaction) : Decoded :=
  match t.space.toNat with
  | 0 => .ok (decodeReg t.we t.addr t.wdata)
  | 1 => if t.we then .ok (.wrtxt t.addr t.wdata) else .ok (.rdtxt t.addr)
  | 2 => if t.we then .rejected .readOnlySpace else .ok (.rdres t.addr)
  | 3 => if t.we then .rejected .readOnlySpace else .ok (.rdbits t.addr)
  | 4 => if t.we then .rejected .readOnlySpace else .ok (.rdtab t.addr)
  | _ => .rejected .reservedSpace

/-- The instruction of a decoder's answer, where there is one. -/
def Decoded.instr? : Decoded → Option Instr
  | .ok i => some i
  | .rejected _ => none

/-- The transaction that a row of spec/opcode_table.json means (log 11): a row of at most 8 bits is a header
`{we, space[2:0]}` with address and data zero; a longer one is a command word, written to CMD (R100, R110). -/
def Transaction.ofTableWord (nbits w : Nat) : Transaction :=
  if nbits ≤ 8 then
    { we := w.testBit 3, space := BitVec.ofNat 3 w, addr := 0#64, wdata := 0#64 }
  else
    { we := true, space := 0#3, addr := 0#64, wdata := BitVec.ofNat 64 w }

/-- The instruction the decoder reads from a table row's bits. -/
def decodeTableWord (nbits w : Nat) : Option Instr :=
  (decode (Transaction.ofTableWord nbits w)).instr?

/-- The command word of a command (R102). -/
def encodeCommand : Command → Word
  | .alloc => 0x0000000000000001#64
  | .init => 0x0000000000000002#64
  | .insert => 0x0000000000000003#64
  | .search => 0x0000000000000004#64
  | .release => 0x0000000000000005#64

/-- A CMD write of a command word (R100). -/
def Transaction.command (cw : Word) : Transaction :=
  { we := true, space := 0#3, addr := 0#64, wdata := cw }

/-- A read; its data, which the port ignores (R60), is 0 (log 16). -/
def Transaction.read (space : BitVec 3) (addr : Word) : Transaction :=
  { we := false, space, addr, wdata := 0#64 }

/-- A write. -/
def Transaction.write (space : BitVec 3) (addr wdata : Word) : Transaction :=
  { we := true, space, addr, wdata }

/-- The transaction an instruction is (R100, R110, R112). -/
def encode : Instr → Transaction
  | .alloc => .command (encodeCommand .alloc)
  | .init => .command (encodeCommand .init)
  | .insert => .command (encodeCommand .insert)
  | .search => .command (encodeCommand .search)
  | .release => .command (encodeCommand .release)
  | .rdreg addr => .read 0#3 addr
  | .wrreg addr wdata => .write 0#3 addr wdata
  | .rdtxt addr => .read 1#3 addr
  | .wrtxt addr wdata => .write 1#3 addr wdata
  | .rdres addr => .read 2#3 addr
  | .rdbits addr => .read 3#3 addr
  | .rdtab addr => .read 4#3 addr

/-- The 4-bit header `{we, space[2:0]}` of a transaction (R110). -/
def Transaction.header (t : Transaction) : BitVec 4 :=
  BitVec.ofBool t.we ++ t.space

end Sys2Proof
end

