-- ==== Sys2Proof/Machine/State.lean ====
section
/-! DEFINITION. The state of the block as plain data (spec/10_state.md), the two reason types of the interface,
and the state after reset. -/

namespace Sys2Proof.Machine

/-- The text buffer's written bytes: (address, byte) pairs, addresses strictly rising (`Memory.wf` in Ops). An
address not listed holds no written byte; it reads as a free value (log 4). -/
abbrev Memory := List Host.Cell

/-- A sparse memory of other units by index: (index, value) pairs, indexes strictly rising. -/
abbrev Cells (α : Type) := List (Nat × α)

/-- The lifecycle phase, `STATUS[1:0]` (R30). Value 3 never occurs (spec/93_implementation_defined.md U9). -/
inductive Phase where
  | empty
  | allocated
  | ready
  deriving DecidableEq, Repr

/-- The outcome of a command, `ERRCODE[2:0]` (spec/60_exceptions.md R200). -/
inductive ErrCode where
  | ok
  | configError
  | allocationError
  | invalidState
  | illegalCommand
  | operandError
  deriving DecidableEq, Repr

/-- One record of the result memory (R47). -/
structure MatchRecord where
  start : Word
  length : Word
  hash : Word
  deriving DecidableEq, Repr

/-- The port's answer `(resp, rdata)` to a transaction (spec/20_memory.md R60). Only a read answered OKAY has
data (R67). -/
inductive Response where
  /-- `OKAY` to a write. -/
  | okay
  /-- `OKAY` to a read, with its data. -/
  | okayData (rdata : Word)
  /-- `FAULT`: no data, no state changed (R206, R207). -/
  | fault
  deriving DecidableEq, Repr

/-- What reaches the block from outside: a port transaction (R60) or reset (spec/70_reset_and_hazards.md R230). -/
inductive Event where
  | transaction (t : Transaction)
  | reset
  deriving DecidableEq, Repr

/-- Reasons for the machine to stop. It has NO constructor: no command and no transaction of this block hangs
or stops it (spec/00_scope.md section 7, spec/60_exceptions.md R213, R214); a command error and a port fault
are next states (log 14; safe, nothing is left out). -/
inductive Fault where
  deriving DecidableEq, Repr

/-- Reasons for the model to refuse. -/
inductive Refusal where
  /-- An instruction without a meaning in `exec`; raised by no arm of this model. Safe: the run stops. -/
  | notModelled (mnemonic : String)
  deriving DecidableEq, Repr

/-- The state of the block (R20) and, last, the model's own fields. -/
structure State where
  /-- The implementation's parameters; no step changes them (log 1). CAPMAX, TXTSIZE and RESSIZE read them. -/
  params : Params
  /-- ARG0, register 1 (R21). -/
  arg0 : Word
  /-- ARG1, register 2 (R21). -/
  arg1 : Word
  /-- ARG2, register 3 (R21). -/
  arg2 : Word
  /-- STATUS.PHASE, register 4 (R30). -/
  phase : Phase
  /-- ERRCODE, register 5 (R32). -/
  errcode : ErrCode
  /-- RET_HASH, register 6 (R22). -/
  retHash : Word
  /-- RCOUNT, register 7 (R23). -/
  rcount : Word
  /-- CAPBITS, register 8 (R33). -/
  capbits : Word
  /-- MASK, register 9 (R34). -/
  mask : Word
  /-- T, the byte-hash table (R40). -/
  table : Vector Word 256
  /-- BITS, the bit array (R42): its nonzero words. -/
  bits : Cells Word
  /-- TXT, the text buffer (R44): its written bytes. -/
  txt : Memory
  /-- RES, the result memory (R47): its written records. -/
  res : Cells MatchRecord
  /-- SC_H (R45). -/
  scH : Word
  /-- SC_S (R46). -/
  scS : Word
  /-- SC_LEN (R46). -/
  scLen : Word
  /-- SC_N (R46). -/
  scN : Word
  /-- G0 (R49). -/
  g0 : Word
  /-- G1 (R49). -/
  g1 : Word
  /-- The model's own: how many reset events have occurred; it indexes the free values (logs 4, 7). -/
  resets : Nat
  /-- The model's own: the events from outside not yet accepted, oldest first (log 9). -/
  pending : List Event
  /-- The model's own: the answer to the transaction accepted last (log 10). -/
  response : Option Response
  deriving DecidableEq, Repr

/-- The state right after a reset (R54, R55): registers at the values R54 states; memories and working
registers, which R55 leaves unspecified, at the values of logs 4, 5 and 7. -/
def State.afterReset (params : Params) (resets : Nat) (pending : List Event) : State where
  params := params
  arg0 := 0#64
  arg1 := 0#64
  arg2 := 0#64
  phase := .empty
  errcode := .ok
  retHash := 0#64
  rcount := 0#64
  capbits := 0#64
  mask := 0#64
  table := Vector.replicate 256 0#64
  bits := []
  txt := []
  res := []
  scH := 0#64
  scS := 0#64
  scLen := 0#64
  scN := 0#64
  g0 := 0#64
  g1 := 0#64
  resets := resets
  pending := pending
  response := none

/-- The machine right after reset (R54), with the parameters the spec suggests for tests (log 2). -/
def State.reset : State :=
  State.afterReset Params.suggested 0 []

end Sys2Proof.Machine
end

