-- ==== Sys2Proof/Machine/Ops.lean ====
section
/-! DEFINITION. The named operations over memory, registers and the port: every meaning is written over these. -/

namespace Sys2Proof.Machine

/-! ### Sparse memories in canonical form -/

/-- The value listed at an index. -/
def Cells.read? {α : Type} (a : Nat) : Cells α → Option α
  | [] => none
  | (k, v) :: m => if k = a then some v else Cells.read? a m

/-- The list with the value at an index replaced or, in its place in the order, added. -/
def Cells.write {α : Type} (a : Nat) (v : α) : Cells α → Cells α
  | [] => [(a, v)]
  | (k, w) :: m =>
    if a < k then (a, v) :: (k, w) :: m
    else if k = a then (a, v) :: m
    else (k, w) :: Cells.write a v m

/-- The list without the entry at an index. -/
def Cells.erase {α : Type} (a : Nat) (m : Cells α) : Cells α :=
  m.filter (fun e => e.1 ≠ a)

/-- Indexes strictly rising, so none is listed twice. -/
abbrev Cells.Rising {α : Type} (m : Cells α) : Prop :=
  m.Pairwise (fun x y => x.1 < y.1)

/-- The canonical form of the text buffer: addresses strictly rising. An unlisted address holds no written
byte, so no listed byte can equal what it reads as. -/
abbrev Memory.wf (m : Memory) : Prop :=
  Cells.Rising m

/-- The canonical form of the bit array: indexes strictly rising, no listed word 0 (an unlisted word is 0). -/
abbrev Cells.wfBits (m : Cells Word) : Prop :=
  Cells.Rising m ∧ ∀ e ∈ m, e.2 ≠ 0#64

/-! ### Word arithmetic (spec/00_scope.md R18) -/

/-- `ror1`: rotation right by one bit (R18). -/
def ror1 (a : Word) : Word :=
  (a >>> 1) ||| (a <<< 63)

/-! ### The text buffer (spec/10_state.md R44, spec/20_memory.md R61, R75) -/

/-- `TXT[a]`: the byte written last, or the free value of a location nothing has written since reset (log 4). -/
def State.textByte (s : State) (a : Nat) : Byte :=
  (Cells.read? a s.txt).getD (Config.unwrittenText s.resets a)

/-- `TXT[a] <- b`. -/
def State.storeText (a : Nat) (b : Byte) (s : State) : State :=
  { s with txt := Cells.write a b s.txt }

/-! ### The bit array (spec/10_state.md R42, R43, spec/42_insert.md R162, spec/43_search.md R181) -/

/-- `BITS[w]`. -/
def State.bitsWord (s : State) (w : Nat) : Word :=
  (Cells.read? w s.bits).getD 0#64

/-- A bit array with one word replaced; a word of 0 is not listed. -/
def Cells.writeBits (w : Nat) (v : Word) (m : Cells Word) : Cells Word :=
  if v = 0#64 then Cells.erase w m else Cells.write w v m

/-- `BITS[w] <- v`. -/
def State.storeBits (w : Nat) (v : Word) (s : State) : State :=
  { s with bits := Cells.writeBits w v s.bits }

/-- The word index of a bit slot (R43). -/
def slotWord (p : Word) : Nat :=
  (p >>> 6).toNat

/-- The bit index of a bit slot in its word (R43). -/
def slotBit (p : Word) : Nat :=
  (p &&& 63#64).toNat

/-- `SetBit(p)` (R162). -/
def State.setBit (p : Word) (s : State) : State :=
  s.storeBits (slotWord p) (s.bitsWord (slotWord p) ||| (1#64 <<< slotBit p))

/-- `TestBit(p)` (R181). -/
def State.testBit (s : State) (p : Word) : Bool :=
  ((s.bitsWord (slotWord p) >>> slotBit p) &&& 1#64) == 1#64

/-- `for w in 0 .. n-1: BITS[w] <- 0` (spec/41_index_store.md R140); the words from `n` on are not written. -/
def State.zeroBits (n : Nat) (s : State) : State :=
  { s with bits := s.bits.filter (fun e => n ≤ e.1) }

/-! ### The byte-hash table (spec/10_state.md R40, spec/20_memory.md R76) -/

/-- `T[b]`. -/
def tableEntry (t : Vector Word 256) (b : Byte) : Word :=
  t.get b.toFin

/-! ### The result memory (spec/10_state.md R47, spec/20_memory.md R62, R78) -/

/-- `RES[i]`; a record no SEARCH has written since reset is a free value (log 7). -/
def State.record (s : State) (i : Nat) : MatchRecord :=
  (Cells.read? i s.res).getD
    { start := Config.unwrittenRecord s.resets i 0
      length := Config.unwrittenRecord s.resets i 1
      hash := Config.unwrittenRecord s.resets i 2 }

/-- `RES[i] <- r`. -/
def State.storeRecord (i : Nat) (r : MatchRecord) (s : State) : State :=
  { s with res := Cells.write i r s.res }

/-! ### The port's answer, the end of a command, and what stands in the place of an exception -/

/-- The transaction is answered; the answer is the model's own field (log 10). -/
def State.answer (r : Response) (s : State) : State :=
  { s with response := some r }

/-- A port fault (R67, R206): answered FAULT, nothing else changes. -/
def State.portFault (s : State) : State :=
  s.answer .fault

/-- The answer to a read: its data, or FAULT where there is none to read (R66, R67). -/
def State.answerRead (v : Option Word) (s : State) : State :=
  match v with
  | some v => s.answer (.okayData v)
  | none => s.portFault

/-- The end of a command: its outcome goes to ERRCODE (R32, R200) and the CMD write that started it is
answered OKAY, whatever the outcome (R100, R206). -/
def State.endCommand (e : ErrCode) (s : State) : State :=
  { s.answer .okay with errcode := e }

/-- `raise e`, the block's only exception entry (R19, R208, R213): the command is abandoned, ERRCODE receives
the code and every other piece of state keeps the value it had when the command was accepted. There is no
handler, no saved state and no mode change, and no return from it (R214): the next transaction is accepted at
once. -/
def raise (e : ErrCode) (s : State) : Host.Outcome State Fault Refusal :=
  .next (s.endCommand e)

/-- The reset event (R230): what R54 and R55 say; the implementation's parameters and the events the host has
still to present are outside the block and stay (log 15). -/
def State.resetEvent (s : State) : State :=
  State.afterReset s.params (s.resets + 1) s.pending

end Sys2Proof.Machine
end

