-- ==== Sys2Proof/Machine/Flags.lean ====
section
/-! DEFINITION. The status encodings. The block has no condition codes (spec/10_state.md R29): its only status
is the phase in STATUS and the outcome of the last command in ERRCODE. -/

namespace Sys2Proof.Machine

/-- `PHASE` as STATUS[1:0] codes it (R30). -/
def Phase.code : Phase → BitVec 2
  | .empty => 0#2
  | .allocated => 1#2
  | .ready => 2#2

/-- The numeric code of an outcome, ERRCODE[2:0] (R200). -/
def ErrCode.code : ErrCode → BitVec 3
  | .ok => 0#3
  | .configError => 1#3
  | .allocationError => 2#3
  | .invalidState => 3#3
  | .illegalCommand => 4#3
  | .operandError => 5#3

/-- The STATUS register: bits [63:2] read zero (R30). -/
def State.statusWord (s : State) : Word :=
  s.phase.code.setWidth 64

/-- The ERRCODE register: bits [63:3] read zero (R32). -/
def State.errcodeWord (s : State) : Word :=
  s.errcode.code.setWidth 64

end Sys2Proof.Machine
end

