-- ==== Sys2Proof/Machine/Generator.lean ====
section
/-! DEFINITION. The hash-table generator (spec/40_hash_table_generator.md). -/

namespace Sys2Proof.Machine

/-- `GEN_CONST` (spec/00_scope.md R12). -/
def genConst : Word := 0x00000000DEADBEEF#64

/-- `BURN_IN` (spec/00_scope.md R11). -/
def burnIn : Nat := 64

/-- The two words of generator state, `G0` and `G1` (spec/10_state.md R49). -/
abbrev GenState := Word × Word

/-- The default step `XS128P` (R133; PRESUMED by the spec itself, spec/93_implementation_defined.md G1, log 3). -/
def xs128p (x y : Word) : Word × Word :=
  let x := x ^^^ (x <<< 23)
  (y, x ^^^ y ^^^ (x >>> 17) ^^^ (y >>> 26))

/-- The step function `XS` a name stands for (spec/00_scope.md R16). -/
def xsOf : Generator → Word → Word → Word × Word
  | .xs128p => xs128p
  | .other n => Config.xsOther n

/-- The state after one `GenStep` (R132). -/
def genNext (xs : Word → Word → Word × Word) (g : GenState) : GenState :=
  xs g.1 g.2

/-- The output of the `GenStep` that led to a state: the sum of the two updated words (R132). -/
def genOutput (g : GenState) : Word :=
  g.1 + g.2

/-- The state after `n` steps whose outputs are discarded (R134). -/
def genSkip (xs : Word → Word → Word × Word) : Nat → GenState → GenState
  | 0, g => g
  | n + 1, g => genNext xs (genSkip xs n g)

/-- `n` outputs in order, and the state after them: the fill loop of R134. -/
def genFill (xs : Word → Word → Word × Word) : (n : Nat) → GenState → Vector Word n × GenState
  | 0, g => (#v[], g)
  | n + 1, g =>
    let (t, g) := genFill xs n g
    let g := genNext xs g
    (t.push (genOutput g), g)

/-- The generator's state after burn-in (R131, R134): `G0 <- seed`, `G1 <- GEN_CONST`, 64 steps discarded. -/
def genSeeded (xs : Word → Word → Word × Word) (seed : Word) : GenState :=
  genSkip xs burnIn (seed, genConst)

/-- `GenTable(seed)` (R130, R134): the table, and the generator's state after the 320th step. -/
@[irreducible] def genTable (xs : Word → Word → Word × Word) (seed : Word) : Vector Word 256 × GenState :=
  genFill xs 256 (genSeeded xs seed)

/-- `GenTable(seed)` as INIT runs it: it writes `T`, `G0` and `G1` (R130). -/
def State.runGenTable (seed : Word) (s : State) : State :=
  { s with
    table := (genTable (xsOf s.params.generator) seed).1
    g0 := (genTable (xsOf s.params.generator) seed).2.1
    g1 := (genTable (xsOf s.params.generator) seed).2.2 }

end Sys2Proof.Machine
end

