-- ==== Sys2Proof/Machine/Operands.lean ====
section
/-! DEFINITION. Operand forms: the register file as the port sees it, the operand checks of the commands, and
the rolling-hash datapath that INSERT and SEARCH share. -/

namespace Sys2Proof.Machine

/-! ### The register file (spec/10_state.md R39, spec/20_memory.md R66) -/

/-- `CAPMAX` (R35). -/
def State.capmaxWord (s : State) : Word :=
  BitVec.ofNat 64 (2 ^ s.params.capLog2Max)

/-- `TXTSIZE` (R36). -/
def State.txtsizeWord (s : State) : Word :=
  BitVec.ofNat 64 s.params.txtBytes

/-- `RESSIZE` (R37). -/
def State.ressizeWord (s : State) : Word :=
  BitVec.ofNat 64 s.params.resEntries

/-- A host read of register number `n`; `none` where it is a port fault: CMD (P3) and numbers above 13 (P2). -/
def State.readRegister (s : State) (n : Word) : Option Word :=
  match n.toNat with
  | 0 => none
  | 1 => some s.arg0
  | 2 => some s.arg1
  | 3 => some s.arg2
  | 4 => some s.statusWord
  | 5 => some s.errcodeWord
  | 6 => some s.retHash
  | 7 => some s.rcount
  | 8 => some s.capbits
  | 9 => some s.mask
  | 10 => some s.capmaxWord
  | 11 => some s.txtsizeWord
  | 12 => some s.ressizeWord
  | 13 => some genConst
  | _ => none

/-- A host write of `v` to register number `n`, other than a CMD write; `none` where it is a port fault: the
read-only registers (P4) and numbers above 13 (P2). -/
def State.writeRegister (n v : Word) (s : State) : Option State :=
  match n.toNat with
  | 1 => some { s with arg0 := v }
  | 2 => some { s with arg1 := v }
  | 3 => some { s with arg2 := v }
  | _ => none

/-! ### The record address (spec/20_memory.md R62) -/

/-- The record index `addr >> 2`. -/
def recordIndex (addr : Word) : Nat :=
  (addr >>> 2).toNat

/-- Field `f` of a record: start, length, hash, and 0 for field 3. -/
def MatchRecord.field (r : MatchRecord) (f : BitVec 2) : Word :=
  match f.toNat with
  | 0 => r.start
  | 1 => r.length
  | 2 => r.hash
  | _ => 0#64

/-! ### The windows (spec/20_memory.md R61 to R64); `none` where the read is a port fault -/

/-- A read of space TXT (R61, P5): the byte zero-extended. -/
def State.readText (s : State) (addr : Word) : Option Word :=
  if addr.toNat < s.params.txtBytes then some ((s.textByte addr.toNat).setWidth 64) else none

/-- A read of space RES (R62, P7). -/
def State.readRecord (s : State) (addr : Word) : Option Word :=
  if recordIndex addr < s.rcount.toNat then
    some ((s.record (recordIndex addr)).field (addr.extractLsb' 0 2))
  else none

/-- A read of space BITS (R63, P8). -/
def State.readBits (s : State) (addr : Word) : Option Word :=
  if s.phase ≠ .empty ∧ addr.toNat < s.capbits.toNat / 64 then some (s.bitsWord addr.toNat) else none

/-- A read of space TAB (R64, P9). -/
def State.readTable (s : State) (addr : Word) : Option Word :=
  if s.phase = .ready ∧ addr.toNat ≤ 255 then some (tableEntry s.table (addr.extractLsb' 0 8)) else none

/-! ### Operand checks -/

/-- `LegalCap(c)` (spec/41_index_store.md R141): nonzero, a multiple of 64, a power of two. -/
def legalCap (c : Word) : Bool :=
  c != 0#64 && c.extractLsb' 0 6 == 0#6 && c &&& (c - 1#64) == 0#64

/-- `InRange(base, len)` (spec/30_encoding.md R107), on natural numbers. -/
def State.inRange (s : State) (base len : Word) : Bool :=
  base.toNat ≤ s.params.txtBytes && len.toNat ≤ s.params.txtBytes - base.toNat

/-- The bound check of SEARCH (spec/30_encoding.md R108). -/
def State.legalBound (s : State) (max : Word) : Bool :=
  max != 0#64 && max.toNat ≤ s.params.resEntries

/-! ### The rolling hash (spec/42_insert.md R160) -/

/-- `Roll(h, b) = ror1(h) XOR T[b]`. -/
def roll (t : Vector Word 256) (h : Word) (b : Byte) : Word :=
  ror1 h ^^^ tableEntry t b

/-- The prefix slot of a hash (spec/20_memory.md R77). -/
def prefixSlot (mask h : Word) : Word :=
  h &&& mask

/-- The terminator slot of a hash: the addition is modulo 2^64, before the mask (R77, spec/42_insert.md R168). -/
def terminatorSlot (mask h : Word) : Word :=
  (h + 1#64) &&& mask

/-- Consuming the byte `TXT[a]`: the three lines that INSERT and SEARCH share (R165, R183). -/
def State.consume (a : Nat) (s : State) : State :=
  { s with scH := roll s.table s.scH (s.textByte a), scLen := s.scLen + 1#64 }

end Sys2Proof.Machine
end

