-- ==== Sys2Proof/Machine/IndexStore.lean ====
section
/-! DEFINITION. The index store commands ALLOC, INIT and RELEASE (spec/41_index_store.md). -/

namespace Sys2Proof.Machine

/-- CAPBITS, MASK and PHASE of a new index (R140). -/
def State.openIndex (c : Word) (s : State) : State :=
  { s with capbits := c, mask := c - 1#64, phase := .allocated }

/-- CAPBITS, MASK and PHASE when there is no index (R150). -/
def State.closeIndex (s : State) : State :=
  { s with phase := .empty, capbits := 0#64, mask := 0#64 }

/-- The index is ready (R146). -/
def State.markReady (s : State) : State :=
  { s with phase := .ready }

/-- ALLOC (R140 to R145); the order of the checks is spec/60_exceptions.md R212. -/
def execAlloc (s : State) : Host.Outcome State Fault Refusal :=
  if s.phase ≠ .empty then raise .invalidState s
  else if legalCap s.arg0 = false then raise .configError s
  else if 2 ^ s.params.capLog2Max < s.arg0.toNat then raise .allocationError s
  else .next (State.endCommand .ok ((s.zeroBits (s.arg0.toNat / 64)).openIndex s.arg0))

/-- INIT (R146 to R148). -/
def execInit (s : State) : Host.Outcome State Fault Refusal :=
  if s.phase ≠ .allocated then raise .invalidState s
  else .next (State.endCommand .ok (s.runGenTable s.arg0).markReady)

/-- RELEASE (R150 to R152). It writes neither BITS nor `T`, whose contents R151 then leaves unspecified and
unreachable (log 6). -/
def execRelease (s : State) : Host.Outcome State Fault Refusal :=
  if s.phase = .empty then raise .invalidState s
  else .next (State.endCommand .ok s.closeIndex)

end Sys2Proof.Machine
end

