-- ==== Sys2Proof/Machine/Insert.lean ====
section
/-! DEFINITION. The command INSERT (spec/42_insert.md). -/

namespace Sys2Proof.Machine

/-- One turn of INSERT's loop (R165): the byte `TXT[base + SC_LEN]`, then its prefix bit. -/
def insertByte (base : Nat) (s : State) : State :=
  let s := s.consume (base + s.scLen.toNat)
  s.setBit (prefixSlot s.mask s.scH)

/-- INSERT's loop with `n` bytes still to consume. -/
def insertLoop (base : Nat) : Nat → State → State
  | 0, s => s
  | n + 1, s => insertLoop base n (insertByte base s)

/-- The working registers before the first byte (R165 step 1). -/
def State.beginWord (s : State) : State :=
  { s with scS := 0#64, scLen := 0#64, scH := 0#64 }

/-- `RET_HASH <- SC_H` (R165 step 4, R169). -/
def State.returnHash (s : State) : State :=
  { s with retHash := s.scH }

/-- INSERT after its checks (R165, R166): the loop, the terminator bit (R168), RET_HASH. -/
def State.insertWord (base len : Nat) (s : State) : State :=
  let s := insertLoop base len s.beginWord
  State.returnHash (s.setBit (terminatorSlot s.mask s.scH))

/-- INSERT (R165, R170). -/
def execInsert (s : State) : Host.Outcome State Fault Refusal :=
  if s.phase ≠ .ready then raise .invalidState s
  else if s.inRange s.arg0 s.arg1 = false then raise .operandError s
  else .next (State.endCommand .ok (s.insertWord s.arg0.toNat s.arg1.toNat))

end Sys2Proof.Machine
end

