-- ==== Sys2Proof/Machine/Search.lean ====
section
/-! DEFINITION. The command SEARCH (spec/43_search.md). -/

namespace Sys2Proof.Machine

/-- Emission of a candidate (R186, spec/20_memory.md R78): record `SC_N`, then `SC_N` counts it. -/
def State.emit (s : State) : State :=
  let s := s.storeRecord s.scN.toNat { start := s.scS, length := s.scLen, hash := s.scH }
  { s with scN := s.scN + 1#64 }

/-- The working registers before the first start offset. -/
def State.beginText (s : State) : State :=
  { s with scN := 0#64, scS := 0#64 }

/-- The working registers at a new start offset: "Reset hash := 0, len := 0" (R184). -/
def State.beginOffset (s : State) : State :=
  { s with scH := 0#64, scLen := 0#64 }

/-- The next start offset. -/
def State.nextOffset (s : State) : State :=
  { s with scS := s.scS + 1#64 }

/-- `RCOUNT <- SC_N` (R23). -/
def State.returnCount (s : State) : State :=
  { s with rcount := s.scN }

/-- The inner loop of R183 with `n` bytes left in the text; the Bool says that the bound `max` was reached and
the command ends (R188, R189). -/
def scanFrom (base : Nat) (max : Word) : Nat → State → State × Bool
  | 0, s => (s, false)
  | n + 1, s =>
    let s := s.consume (base + s.scS.toNat + s.scLen.toNat)
    if s.testBit (prefixSlot s.mask s.scH) = false then (s, false)
    else if s.testBit (terminatorSlot s.mask s.scH) then
      let s := s.emit
      if s.scN = max then (s, true) else scanFrom base max n s
    else scanFrom base max n s

/-- The outer loop of R183 with `n` start offsets left (R184). -/
def scanStarts (base : Nat) (max : Word) : Nat → State → State
  | 0, s => s
  | n + 1, s =>
    match scanFrom base max (n + 1) s.beginOffset with
    | (s, true) => s
    | (s, false) => scanStarts base max n s.nextOffset

/-- SEARCH after its checks (R183): the scan from offset 0, then RCOUNT. -/
def State.searchText (base len : Nat) (max : Word) (s : State) : State :=
  State.returnCount (scanStarts base max len s.beginText)

/-- SEARCH (R183, R194). -/
def execSearch (s : State) : Host.Outcome State Fault Refusal :=
  if s.phase ≠ .ready then raise .invalidState s
  else if s.inRange s.arg0 s.arg1 = false then raise .operandError s
  else if s.legalBound s.arg2 = false then raise .operandError s
  else .next (State.endCommand .ok (s.searchText s.arg0.toNat s.arg1.toNat s.arg2))

end Sys2Proof.Machine
end

