-- ==== Sys2Proof/Machine/Port.lean ====
section
/-! DEFINITION. The port transactions (spec/20_memory.md R61 to R67, spec/60_exceptions.md R206, R207). -/

namespace Sys2Proof.Machine

/-- A write of `cw` to CMD (spec/30_encoding.md R100, R103): the command it names, else IllegalCommand. -/
def execCommandWord (cw : Word) (s : State) : Host.Outcome State Fault Refusal :=
  match decodeCommand cw with
  | some .alloc => execAlloc s
  | some .init => execInit s
  | some .insert => execInsert s
  | some .search => execSearch s
  | some .release => execRelease s
  | none => raise .illegalCommand s

/-- RDREG (R66; faults P2, P3). -/
def execRdreg (addr : Word) (s : State) : Host.Outcome State Fault Refusal :=
  .next (s.answerRead (s.readRegister addr))

/-- WRREG (R66; faults P2, P4). Number 0 is CMD. -/
def execWrreg (addr wdata : Word) (s : State) : Host.Outcome State Fault Refusal :=
  if addr = 0#64 then execCommandWord wdata s
  else
    match s.writeRegister addr wdata with
    | some s => .next (s.answer .okay)
    | none => .next s.portFault

/-- RDTXT (R61; fault P5). -/
def execRdtxt (addr : Word) (s : State) : Host.Outcome State Fault Refusal :=
  .next (s.answerRead (s.readText addr))

/-- WRTXT (R61; fault P5): `wdata[7:0]` is stored. -/
def execWrtxt (addr wdata : Word) (s : State) : Host.Outcome State Fault Refusal :=
  if addr.toNat < s.params.txtBytes then
    .next (State.answer .okay (s.storeText addr.toNat (wdata.extractLsb' 0 8)))
  else .next s.portFault

/-- RDRES (R62; fault P7). -/
def execRdres (addr : Word) (s : State) : Host.Outcome State Fault Refusal :=
  .next (s.answerRead (s.readRecord addr))

/-- RDBITS (R63; fault P8). -/
def execRdbits (addr : Word) (s : State) : Host.Outcome State Fault Refusal :=
  .next (s.answerRead (s.readBits addr))

/-- RDTAB (R64; fault P9). -/
def execRdtab (addr : Word) (s : State) : Host.Outcome State Fault Refusal :=
  .next (s.answerRead (s.readTable addr))

end Sys2Proof.Machine
end

