-- ==== Sys2Proof/Machine/Dispatch.lean ====
section
/-! DEFINITION. One arm per instruction. -/

namespace Sys2Proof.Machine

def exec (i : Instr) (s : State) : Host.Outcome State Fault Refusal :=
  match i with
  | .alloc => Sys2Proof.Machine.execAlloc s
  | .init => Sys2Proof.Machine.execInit s
  | .insert => Sys2Proof.Machine.execInsert s
  | .search => Sys2Proof.Machine.execSearch s
  | .release => Sys2Proof.Machine.execRelease s
  | .rdreg addr => Sys2Proof.Machine.execRdreg addr s
  | .wrreg addr wdata => Sys2Proof.Machine.execWrreg addr wdata s
  | .rdtxt addr => Sys2Proof.Machine.execRdtxt addr s
  | .wrtxt addr wdata => Sys2Proof.Machine.execWrtxt addr wdata s
  | .rdres addr => Sys2Proof.Machine.execRdres addr s
  | .rdbits addr => Sys2Proof.Machine.execRdbits addr s
  | .rdtab addr => Sys2Proof.Machine.execRdtab addr s

end Sys2Proof.Machine
end

