-- ==== Sys2Proof/Machine/Step.lean ====
section
/-! DEFINITION. One step: the block accepts the oldest event from outside (spec/20_memory.md R60, R80). -/

namespace Sys2Proof.Machine

/-- An accepted transaction: its instruction is executed; one that is no instruction is a port fault (R207
P1, P6). -/
def execTransaction (t : Transaction) (s : State) : Host.Outcome State Fault Refusal :=
  match decode t with
  | .ok i => exec i s
  | .rejected _ => .next s.portFault

/-- One step. With no event the block is idle and waits (spec/70_reset_and_hazards.md R232, log 9); a command
runs to its end within the step of its CMD write (R100, R240, log 13). -/
def step (s : State) : Host.Outcome State Fault Refusal :=
  match s.pending with
  | [] => .next s
  | .reset :: rest => .next (State.resetEvent { s with pending := rest })
  | .transaction t :: rest => execTransaction t { s with pending := rest }

/-- The host presents the transaction of a table row next (logs 9, 11). -/
def State.withFetchWord (s : State) (nbits w : Nat) : State :=
  { s with pending := .transaction (Transaction.ofTableWord nbits w) :: s.pending }

end Sys2Proof.Machine
end

