-- ==== Sys2Proof/Safety.lean ====
section
/-! DEFINITION. What claims are stated in: the invariant of the block's state, and the functions of
spec/42_insert.md and spec/43_search.md that say what INSERT and SEARCH mean on byte sequences. -/

namespace Sys2Proof.Machine

/-! ### The invariant -/

/-- The index registers: no index in EMPTY (spec/10_state.md R33, R34), a legal one in ALLOCATED and READY
(R51). -/
def State.IndexLegal (s : State) : Prop :=
  match s.phase with
  | .empty => s.capbits = 0#64 ∧ s.mask = 0#64
  | .allocated | .ready =>
    ∃ k, 6 ≤ k ∧ k ≤ s.params.capLog2Max ∧ s.capbits.toNat = 2 ^ k ∧ s.mask = s.capbits - 1#64

/-- What every step keeps and reset meets: a legal index (R51), memories in canonical form and inside their
sizes (R42, R44, R47), every record below RCOUNT written, and RCOUNT within the result memory (R23). -/
structure State.Inv (s : State) : Prop where
  index : s.IndexLegal
  txtCanonical : Memory.wf s.txt
  txtInside : ∀ e ∈ s.txt, e.1 < s.params.txtBytes
  bitsCanonical : Cells.wfBits s.bits
  bitsInside : ∀ e ∈ s.bits, e.1 < 2 ^ (s.params.capLog2Max - 6)
  resCanonical : Cells.Rising s.res
  resInside : ∀ e ∈ s.res, e.1 < s.params.resEntries
  resWritten : ∀ i < s.rcount.toNat, (Cells.read? i s.res).isSome
  rcountBounded : s.rcount.toNat ≤ s.params.resEntries

/-! ### Byte sequences and their hash -/

/-- The `len` bytes of text from address `base` (spec/20_memory.md R75). -/
def State.textBytes (s : State) (base len : Nat) : List Byte :=
  (List.range len).map (fun j => s.textByte (base + j))

/-- `H(w)` (spec/42_insert.md R161). -/
def wordHash (t : Vector Word 256) (w : List Byte) : Word :=
  w.foldl (roll t) 0#64

/-- The slots of `S(w)` (spec/42_insert.md R171): one per prefix, then the terminator. -/
def insertSlots (t : Vector Word 256) (mask : Word) (w : List Byte) : List Word :=
  (List.range w.length).map (fun k => prefixSlot mask (wordHash t (w.take (k + 1))))
    ++ [terminatorSlot mask (wordHash t w)]

/-- The word of an INSERT whose operands are `(base, len)`. -/
def State.wordAt (s : State) (operands : Word × Word) : List Byte :=
  s.textBytes operands.1.toNat operands.2.toNat

/-- A sequence of INSERTs, each with its operands `(base, len)` (spec/42_insert.md R172). -/
def State.insertAll : List (Word × Word) → State → Host.Outcome State Fault Refusal
  | [], s => .next s
  | (base, len) :: rest, s =>
    match exec .insert { s with arg0 := base, arg1 := len } with
    | .next t => State.insertAll rest t
    | stopped => stopped

/-! ### Candidates (spec/43_search.md R190) -/

/-- The span of a text from offset `start` of `length` bytes. -/
def span (text : List Byte) (start length : Nat) : List Byte :=
  (text.drop start).take length

/-- `(start, length)` is a candidate: the prefix bit of every prefix of the span is set, and the terminator bit
of the span. -/
def State.isCandidate (s : State) (text : List Byte) (start length : Nat) : Bool :=
  (List.range length).all (fun j => s.testBit (prefixSlot s.mask (wordHash s.table (span text start (j + 1)))))
    && s.testBit (terminatorSlot s.mask (wordHash s.table (span text start length)))

/-- The record of a candidate. -/
def State.candidateRecord (s : State) (text : List Byte) (start length : Nat) : MatchRecord where
  start := BitVec.ofNat 64 start
  length := BitVec.ofNat 64 length
  hash := wordHash s.table (span text start length)

/-- The candidates `(start, length)` of a text, by rising start and then rising length. -/
def State.candidates (s : State) (text : List Byte) : List (Nat × Nat) :=
  (List.range text.length).flatMap (fun start =>
    ((List.range (text.length - start)).filter (fun j => s.isCandidate text start (j + 1))).map
      (fun j => (start, j + 1)))

/-- The records the host can read: those below RCOUNT (spec/20_memory.md R62). -/
def State.records (s : State) : List MatchRecord :=
  (List.range s.rcount.toNat).map s.record

/-! ### Port faults (spec/60_exceptions.md R207) -/

/-- Condition P`n` on a transaction, by its number in the table. -/
def State.PortCondition (s : State) (t : Transaction) : Nat → Prop
  | 1 => 5 ≤ t.space.toNat
  | 2 => t.space = 0#3 ∧ 14 ≤ t.addr.toNat
  | 3 => t.space = 0#3 ∧ t.we = false ∧ t.addr = 0#64
  | 4 => t.space = 0#3 ∧ t.we = true ∧ 4 ≤ t.addr.toNat ∧ t.addr.toNat ≤ 13
  | 5 => t.space = 1#3 ∧ s.params.txtBytes ≤ t.addr.toNat
  | 6 => (t.space = 2#3 ∨ t.space = 3#3 ∨ t.space = 4#3) ∧ t.we = true
  | 7 => t.space = 2#3 ∧ t.we = false ∧ s.rcount.toNat ≤ t.addr.toNat / 4
  | 8 => t.space = 3#3 ∧ t.we = false ∧ (s.phase = .empty ∨ s.capbits.toNat / 64 ≤ t.addr.toNat)
  | 9 => t.space = 4#3 ∧ t.we = false ∧ (s.phase ≠ .ready ∨ 256 ≤ t.addr.toNat)
  | _ => False

/-- One of the conditions P1 to P9 holds. -/
def State.PortFaults (s : State) (t : Transaction) : Prop :=
  ∃ n, s.PortCondition t n

end Sys2Proof.Machine
end

