-- ==== Sys2Proof/Certificates/Slice0/Obligations.lean ====
section
/-! DEFINITION. The statements for the provers. `s` is always any state, unless a premise says otherwise: so every
statement holds for every choice of the implementation's parameters and every generator step (logs 1, 3), and
for every value of the free values (logs 4, 7). The fields `pending` and `response` are the model's own (logs 9,
10): they hold the transactions that the host presents and the answer to the last one, which the rules speak of
(R60) and the spec counts as no state of the block. -/

open Sys2Proof Sys2Proof.Machine

/-! ### Encoding (spec/30_encoding.md) -/

/-- The transaction of a well-formed instruction decodes to it, whatever its operands (R100, R102, R110). -/
def Obligations.DecodeOfEncodeIsIdentity : Prop :=
  ∀ i : Instr, i.wf = true → decode (encode i) = .ok i

/-- What the decoder reads is well formed and is the transaction it was read from, but for the data of a read,
which the port ignores (R60, log 16). -/
def Obligations.DecodedTermIsItsTransaction : Prop :=
  ∀ (t : Transaction) (i : Instr), decode t = .ok i →
    i.wf = true ∧ (encode i).we = t.we ∧ (encode i).space = t.space ∧ (encode i).addr = t.addr
      ∧ (t.we = true → (encode i).wdata = t.wdata)

/-- R103: the decoder of command words is total. A word with a bit above bit 7, or with OPC 0 or above 5, is
illegal: its CMD write sets ERRCODE to IllegalCommand (code 4) and does nothing else, in every state; the words
of R102 are the five commands. -/
def Obligations.CommandWordsDecodeAsListed : Prop :=
  (∀ cw : Word,
    (cw.extractLsb' 8 56 ≠ 0#56 ∨ (cw.extractLsb' 0 8).toNat = 0 ∨ 6 ≤ (cw.extractLsb' 0 8).toNat) →
      decodeCommand cw = none
      ∧ ∀ s : State, exec (.wrreg 0#64 cw) s
          = .next { s with errcode := .illegalCommand, response := some .okay })
  ∧ ErrCode.illegalCommand.code = 4#3
  ∧ (∀ cw : Word, cw.extractLsb' 8 56 = 0#56 → 1 ≤ (cw.extractLsb' 0 8).toNat →
      (cw.extractLsb' 0 8).toNat ≤ 5 →
      ∃ c : Command, decodeCommand cw = some c ∧ cw = encodeCommand c
        ∧ ∀ s : State, exec (.wrreg 0#64 cw) s = exec c.instr s)
  ∧ encodeCommand .alloc = 1#64 ∧ encodeCommand .init = 2#64 ∧ encodeCommand .insert = 3#64
  ∧ encodeCommand .search = 4#64 ∧ encodeCommand .release = 5#64

/-- Words written out from R102, R110 and the encodings of spec/95_test_vectors.md P1, one per row. -/
def Obligations.WrittenOutWordsDecode : Prop :=
  decode ⟨true, 0#3, 0#64, 0x0000000000000001#64⟩ = .ok .alloc
  ∧ decode ⟨true, 0#3, 0#64, 0x0000000000000002#64⟩ = .ok .init
  ∧ decode ⟨true, 0#3, 0#64, 0x0000000000000003#64⟩ = .ok .insert
  ∧ decode ⟨true, 0#3, 0#64, 0x0000000000000004#64⟩ = .ok .search
  ∧ decode ⟨true, 0#3, 0#64, 0x0000000000000005#64⟩ = .ok .release
  ∧ decode ⟨true, 0#3, 1#64, 0x400#64⟩ = .ok (.wrreg 1#64 0x400#64)
  ∧ decode ⟨false, 0#3, 4#64, 0#64⟩ = .ok (.rdreg 4#64)
  ∧ decode ⟨true, 1#3, 16#64, 0x77#64⟩ = .ok (.wrtxt 16#64 0x77#64)
  ∧ decode ⟨false, 1#3, 7#64, 0#64⟩ = .ok (.rdtxt 7#64)
  ∧ decode ⟨false, 2#3, 4#64, 0#64⟩ = .ok (.rdres 4#64)
  ∧ decode ⟨false, 3#3, 13#64, 0#64⟩ = .ok (.rdbits 13#64)
  ∧ decode ⟨false, 4#3, 255#64, 0#64⟩ = .ok (.rdtab 255#64)
  ∧ decode ⟨true, 2#3, 0#64, 0#64⟩ = .rejected .readOnlySpace
  ∧ decode ⟨false, 5#3, 0#64, 0#64⟩ = .rejected .reservedSpace

/-! ### The step -/

/-- A step accepts the oldest transaction and, where it decodes to an instruction, executes it; `pending` is the
model's own field (log 9). -/
def Obligations.StepRunsTheDecodedInstruction : Prop :=
  ∀ (s : State) (t : Transaction) (rest : List Event) (i : Instr),
    s.pending = .transaction t :: rest → decode t = .ok i →
      i.wf = true ∧ step s = exec i { s with pending := rest }

/-- R65: a transaction to space 5, 6 or 7 is answered FAULT and changes nothing; so is a write to space 2, 3 or
4. -/
def Obligations.ReservedSpacesFault : Prop :=
  ∀ (s : State) (t : Transaction) (rest : List Event),
    s.pending = .transaction t :: rest →
    (5 ≤ t.space.toNat ∨ (t.we = true ∧ 2 ≤ t.space.toNat ∧ t.space.toNat ≤ 4)) →
      step s = .next { s with pending := rest, response := some .fault }

/-- R54: what a reset event leaves in the registers, from every state; the constant registers read their
constants. -/
def Obligations.ResetSetsTheStatedValues : Prop :=
  (∀ (s : State) (rest : List Event), s.pending = .reset :: rest →
    ∃ u, step s = .next u
      ∧ u.phase = .empty ∧ u.errcode = .ok ∧ u.arg0 = 0#64 ∧ u.arg1 = 0#64 ∧ u.arg2 = 0#64
      ∧ u.retHash = 0#64 ∧ u.rcount = 0#64 ∧ u.capbits = 0#64 ∧ u.mask = 0#64
      ∧ u.readRegister 10#64 = some (BitVec.ofNat 64 (2 ^ u.params.capLog2Max))
      ∧ u.readRegister 11#64 = some (BitVec.ofNat 64 u.params.txtBytes)
      ∧ u.readRegister 12#64 = some (BitVec.ofNat 64 u.params.resEntries)
      ∧ u.readRegister 13#64 = some 0x00000000DEADBEEF#64)
  ∧ State.reset.phase = .empty ∧ State.reset.errcode = .ok ∧ State.reset.arg0 = 0#64
  ∧ State.reset.arg1 = 0#64 ∧ State.reset.arg2 = 0#64 ∧ State.reset.retHash = 0#64
  ∧ State.reset.rcount = 0#64 ∧ State.reset.capbits = 0#64 ∧ State.reset.mask = 0#64

/-- Nothing in the block hangs, blocks or stops it (spec/00_scope.md section 7): every step, from every state,
answers a next state. -/
def Obligations.EveryStepAnswersNext : Prop :=
  ∀ s : State, ∃ u, step s = .next u

/-- The reset state meets the invariant. -/
def Obligations.ResetStateMeetsInvariant : Prop :=
  State.reset.Inv

/-- Every step keeps the invariant `State.Inv`: the index registers legal for the phase (R51), the memories in
canonical form and inside their sizes (R42, R44, R47), RCOUNT within the result memory (R23) and every record
below it written. -/
def Obligations.StepKeepsInvariant : Prop :=
  ∀ s u : State, s.Inv → step s = .next u → u.Inv

/-- No step changes a parameter, so the constant registers CAPMAX, TXTSIZE, RESSIZE and GENCONST never change
(R35 to R38). -/
def Obligations.StepKeepsParameters : Prop :=
  ∀ s u : State, step s = .next u →
    u.params = s.params
    ∧ ∀ n : Word, 10 ≤ n.toNat → n.toNat ≤ 13 → u.readRegister n = s.readRegister n

/-- R207, R67: at most one of the conditions P1 to P9 holds; a transaction is answered FAULT exactly when one
does, and then nothing changes and there is no data; otherwise a write is answered OKAY and a read OKAY with
data. -/
def Obligations.PortFaultsExactlyP1ToP9 : Prop :=
  (∀ (s : State) (t : Transaction) (m n : Nat), s.PortCondition t m → s.PortCondition t n → m = n)
  ∧ ∀ (s : State) (t : Transaction) (rest : List Event), s.pending = .transaction t :: rest →
    ∃ u, step s = .next u
      ∧ (u.response = some .fault ↔ s.PortFaults t)
      ∧ (s.PortFaults t → u = { s with pending := rest, response := some .fault })
      ∧ (¬ s.PortFaults t → t.we = true → u.response = some .okay)
      ∧ (¬ s.PortFaults t → t.we = false → ∃ v, u.response = some (.okayData v))

/-- No read on the host port has a side effect, and a repeated read returns the same (R72, first sentence). For a
byte of TXT that was never written, that the two reads agree is the model's choice (log 4, DESIGN CHOICE). -/
def Obligations.PortReadsChangeNothing : Prop :=
  ∀ (s : State) (t : Transaction) (rest : List Event), t.we = false →
    s.pending = .transaction t :: .transaction t :: rest →
      ∃ u r, step s = .next u
        ∧ u = { s with pending := .transaction t :: rest, response := some r }
        ∧ step u = .next { s with pending := rest, response := some r }

/-- Who writes what (R39's column "written by", R21 to R23, R40, R42, R44, R47): under a transaction, each
register and memory changes only where its own writer is executed. What RELEASE does to BITS and T is left open
(log 6). -/
def Obligations.StateChangesOnlyByItsWriters : Prop :=
  ∀ (s u : State) (t : Transaction) (rest : List Event),
    s.pending = .transaction t :: rest → step s = .next u →
      ((∀ v, decode t ≠ .ok (.wrreg 1#64 v)) → u.arg0 = s.arg0)
      ∧ ((∀ v, decode t ≠ .ok (.wrreg 2#64 v)) → u.arg1 = s.arg1)
      ∧ ((∀ v, decode t ≠ .ok (.wrreg 3#64 v)) → u.arg2 = s.arg2)
      ∧ ((∀ a v, decode t ≠ .ok (.wrtxt a v)) → u.txt = s.txt)
      ∧ (decode t ≠ .ok .insert → u.retHash = s.retHash)
      ∧ (decode t ≠ .ok .search → u.rcount = s.rcount ∧ u.res = s.res)
      ∧ (decode t ≠ .ok .alloc → decode t ≠ .ok .release → u.capbits = s.capbits ∧ u.mask = s.mask)
      ∧ (decode t ≠ .ok .alloc → decode t ≠ .ok .init → decode t ≠ .ok .release → u.phase = s.phase)
      ∧ (decode t ≠ .ok .init → decode t ≠ .ok .release → u.table = s.table)
      ∧ (decode t ≠ .ok .alloc → decode t ≠ .ok .insert → decode t ≠ .ok .release → u.bits = s.bits)
      ∧ ((t.space ≠ 0#3 ∨ t.we = false ∨ t.addr ≠ 0#64) → u.errcode = s.errcode)

/-- R52: while an index lives, CAPBITS and MASK do not change and no set bit is cleared, whatever the step; once
it is READY, only its bits change. -/
def Obligations.LiveIndexOnlyGainsBits : Prop :=
  ∀ s u : State, step s = .next u → s.phase ≠ .empty → u.phase ≠ .empty →
    u.capbits = s.capbits ∧ u.mask = s.mask ∧ (∀ p : Word, s.testBit p = true → u.testBit p = true)
    ∧ (s.phase = .ready → u.phase = .ready ∧ u.table = s.table)

/-- R53: while the index is READY no step changes T, and SEARCH changes neither T nor BITS, CAPBITS, MASK or
PHASE. -/
def Obligations.ReadyTableIsImmutable : Prop :=
  (∀ s u : State, step s = .next u → s.phase = .ready → u.phase = .ready → u.table = s.table)
  ∧ ∀ s : State, ∃ u, exec .search s = .next u
      ∧ u.table = s.table ∧ u.bits = s.bits ∧ u.capbits = s.capbits ∧ u.mask = s.mask ∧ u.phase = s.phase

/-! ### Registers and windows (spec/10_state.md, spec/20_memory.md) -/

/-- R66: every register access. CAPMAX, TXTSIZE and RESSIZE read the parameters' values. -/
def Obligations.RegisterSpaceAccess : Prop :=
  ∀ s : State,
    exec (.rdreg 1#64) s = .next { s with response := some (.okayData s.arg0) }
    ∧ exec (.rdreg 2#64) s = .next { s with response := some (.okayData s.arg1) }
    ∧ exec (.rdreg 3#64) s = .next { s with response := some (.okayData s.arg2) }
    ∧ exec (.rdreg 4#64) s = .next { s with response := some (.okayData s.statusWord) }
    ∧ exec (.rdreg 5#64) s = .next { s with response := some (.okayData s.errcodeWord) }
    ∧ exec (.rdreg 6#64) s = .next { s with response := some (.okayData s.retHash) }
    ∧ exec (.rdreg 7#64) s = .next { s with response := some (.okayData s.rcount) }
    ∧ exec (.rdreg 8#64) s = .next { s with response := some (.okayData s.capbits) }
    ∧ exec (.rdreg 9#64) s = .next { s with response := some (.okayData s.mask) }
    ∧ (∃ v, exec (.rdreg 10#64) s = .next { s with response := some (.okayData v) }
        ∧ v.toNat = 2 ^ s.params.capLog2Max)
    ∧ (∃ v, exec (.rdreg 11#64) s = .next { s with response := some (.okayData v) }
        ∧ v.toNat = s.params.txtBytes)
    ∧ (∃ v, exec (.rdreg 12#64) s = .next { s with response := some (.okayData v) }
        ∧ v.toNat = s.params.resEntries)
    ∧ exec (.rdreg 13#64) s = .next { s with response := some (.okayData 0x00000000DEADBEEF#64) }
    ∧ (∀ v, exec (.wrreg 1#64 v) s = .next { s with arg0 := v, response := some .okay })
    ∧ (∀ v, exec (.wrreg 2#64 v) s = .next { s with arg1 := v, response := some .okay })
    ∧ (∀ v, exec (.wrreg 3#64 v) s = .next { s with arg2 := v, response := some .okay })
    ∧ (∀ c : Command, exec (.wrreg 0#64 (encodeCommand c)) s = exec c.instr s)
    ∧ (∀ cw, decodeCommand cw = none →
        exec (.wrreg 0#64 cw) s = .next { s with errcode := .illegalCommand, response := some .okay })
    ∧ (∀ n : Word, n.toNat = 0 ∨ 14 ≤ n.toNat →
        exec (.rdreg n) s = .next { s with response := some .fault })
    ∧ (∀ n v : Word, 4 ≤ n.toNat → exec (.wrreg n v) s = .next { s with response := some .fault })

/-- The numbers of the phases and of the outcomes, as STATUS and ERRCODE read; the upper bits read zero (R24,
R30, R32, R200). -/
def Obligations.StatusAndErrcodeNumbers : Prop :=
  ∀ s : State,
    (s.phase = .empty → exec (.rdreg 4#64) s = .next { s with response := some (.okayData 0#64) })
    ∧ (s.phase = .allocated → exec (.rdreg 4#64) s = .next { s with response := some (.okayData 1#64) })
    ∧ (s.phase = .ready → exec (.rdreg 4#64) s = .next { s with response := some (.okayData 2#64) })
    ∧ (s.errcode = .ok → exec (.rdreg 5#64) s = .next { s with response := some (.okayData 0#64) })
    ∧ (s.errcode = .configError → exec (.rdreg 5#64) s = .next { s with response := some (.okayData 1#64) })
    ∧ (s.errcode = .allocationError → exec (.rdreg 5#64) s = .next { s with response := some (.okayData 2#64) })
    ∧ (s.errcode = .invalidState → exec (.rdreg 5#64) s = .next { s with response := some (.okayData 3#64) })
    ∧ (s.errcode = .illegalCommand → exec (.rdreg 5#64) s = .next { s with response := some (.okayData 4#64) })
    ∧ (s.errcode = .operandError → exec (.rdreg 5#64) s = .next { s with response := some (.okayData 5#64) })

/-- R61: the TXT space. A read returns the byte zero-extended and changes nothing; a write stores `wdata[7:0]`
at its address, and every other byte reads as before; at or above TXT_BYTES both are faults. -/
def Obligations.TextWindowReadsAndStores : Prop :=
  ∀ (s : State) (addr v : Word),
    (addr.toNat < s.params.txtBytes →
      exec (.rdtxt addr) s
        = .next { s with response := some (.okayData ((s.textByte addr.toNat).setWidth 64)) }
      ∧ ∃ t, exec (.wrtxt addr v) s = .next t
          ∧ t = { s with txt := t.txt, response := some .okay }
          ∧ ∀ a, t.textByte a = if a = addr.toNat then v.extractLsb' 0 8 else s.textByte a)
    ∧ (s.params.txtBytes ≤ addr.toNat →
      exec (.rdtxt addr) s = .next { s with response := some .fault }
      ∧ exec (.wrtxt addr v) s = .next { s with response := some .fault })

/-- R62: the RES space. -/
def Obligations.ResultWindowReadsRecords : Prop :=
  ∀ (s : State) (addr : Word),
    (s.rcount.toNat ≤ addr.toNat / 4 → exec (.rdres addr) s = .next { s with response := some .fault })
    ∧ (addr.toNat / 4 < s.rcount.toNat →
      (addr.toNat % 4 = 0 → exec (.rdres addr) s
        = .next { s with response := some (.okayData (s.record (addr.toNat / 4)).start) })
      ∧ (addr.toNat % 4 = 1 → exec (.rdres addr) s
        = .next { s with response := some (.okayData (s.record (addr.toNat / 4)).length) })
      ∧ (addr.toNat % 4 = 2 → exec (.rdres addr) s
        = .next { s with response := some (.okayData (s.record (addr.toNat / 4)).hash) })
      ∧ (addr.toNat % 4 = 3 → exec (.rdres addr) s = .next { s with response := some (.okayData 0#64) }))
    ∧ ∀ v, execTransaction ⟨true, 2#3, addr, v⟩ s = .next { s with response := some .fault }

/-- R63: the BITS space. -/
def Obligations.BitsWindowReadsWords : Prop :=
  ∀ (s : State) (addr : Word),
    ((s.phase = .allocated ∨ s.phase = .ready) → addr.toNat < s.capbits.toNat / 64 →
      exec (.rdbits addr) s = .next { s with response := some (.okayData (s.bitsWord addr.toNat)) })
    ∧ ((s.phase = .empty ∨ s.capbits.toNat / 64 ≤ addr.toNat) →
      exec (.rdbits addr) s = .next { s with response := some .fault })
    ∧ ∀ v, execTransaction ⟨true, 3#3, addr, v⟩ s = .next { s with response := some .fault }

/-- R64: the TAB space. -/
def Obligations.TableWindowReadsEntries : Prop :=
  ∀ (s : State) (addr : Word),
    (s.phase = .ready → addr.toNat ≤ 255 → ∃ v, s.table[addr.toNat]? = some v
      ∧ exec (.rdtab addr) s = .next { s with response := some (.okayData v) })
    ∧ ((s.phase ≠ .ready ∨ 256 ≤ addr.toNat) →
      exec (.rdtab addr) s = .next { s with response := some .fault })
    ∧ ∀ v, execTransaction ⟨true, 4#3, addr, v⟩ s = .next { s with response := some .fault }

/-! ### Errors (spec/60_exceptions.md) -/

/-- R213: a command that fails changes ERRCODE and nothing else, whatever the command word; its CMD write is
answered OKAY, as that of a command that succeeds. -/
def Obligations.FailedCommandChangesOnlyErrcode : Prop :=
  ∀ (s : State) (cw : Word), ∃ t, exec (.wrreg 0#64 cw) s = .next t
    ∧ t.response = some .okay
    ∧ (t.errcode ≠ .ok → t = { s with errcode := t.errcode, response := some .okay })

/-- R212: the first failing check, in the order decode, phase, operands, is the one reported, before the command
changes any state; where no check fails, ERRCODE is 0. -/
def Obligations.FirstFailingCheckIsReported : Prop :=
  ∀ s : State,
    (∀ cw, decodeCommand cw = none →
      exec (.wrreg 0#64 cw) s = .next { s with errcode := .illegalCommand, response := some .okay })
    ∧ (∃ t, exec .alloc s = .next t
      ∧ (t.errcode ≠ .ok → t = { s with errcode := t.errcode, response := some .okay })
      ∧ (s.phase ≠ .empty → t.errcode = .invalidState)
      ∧ (s.phase = .empty → (¬ ∃ k, 6 ≤ k ∧ k ≤ 63 ∧ s.arg0.toNat = 2 ^ k) → t.errcode = .configError)
      ∧ (s.phase = .empty → (∃ k, 6 ≤ k ∧ k ≤ 63 ∧ s.arg0.toNat = 2 ^ k) →
          2 ^ s.params.capLog2Max < s.arg0.toNat → t.errcode = .allocationError)
      ∧ (s.phase = .empty → (∃ k, 6 ≤ k ∧ k ≤ 63 ∧ s.arg0.toNat = 2 ^ k) →
          s.arg0.toNat ≤ 2 ^ s.params.capLog2Max → t.errcode = .ok))
    ∧ (∃ t, exec .init s = .next t
      ∧ (t.errcode ≠ .ok → t = { s with errcode := t.errcode, response := some .okay })
      ∧ (s.phase ≠ .allocated → t.errcode = .invalidState)
      ∧ (s.phase = .allocated → t.errcode = .ok))
    ∧ (∃ t, exec .insert s = .next t
      ∧ (t.errcode ≠ .ok → t = { s with errcode := t.errcode, response := some .okay })
      ∧ (s.phase ≠ .ready → t.errcode = .invalidState)
      ∧ (s.phase = .ready →
          ¬ (s.arg0.toNat ≤ s.params.txtBytes ∧ s.arg1.toNat ≤ s.params.txtBytes - s.arg0.toNat) →
          t.errcode = .operandError)
      ∧ (s.phase = .ready → s.arg0.toNat ≤ s.params.txtBytes →
          s.arg1.toNat ≤ s.params.txtBytes - s.arg0.toNat → t.errcode = .ok))
    ∧ (∃ t, exec .search s = .next t
      ∧ (t.errcode ≠ .ok → t = { s with errcode := t.errcode, response := some .okay })
      ∧ (s.phase ≠ .ready → t.errcode = .invalidState)
      ∧ (s.phase = .ready →
          ¬ (s.arg0.toNat ≤ s.params.txtBytes ∧ s.arg1.toNat ≤ s.params.txtBytes - s.arg0.toNat
            ∧ 1 ≤ s.arg2.toNat ∧ s.arg2.toNat ≤ s.params.resEntries) →
          t.errcode = .operandError)
      ∧ (s.phase = .ready → s.arg0.toNat ≤ s.params.txtBytes →
          s.arg1.toNat ≤ s.params.txtBytes - s.arg0.toNat → 1 ≤ s.arg2.toNat →
          s.arg2.toNat ≤ s.params.resEntries → t.errcode = .ok))
    ∧ (∃ t, exec .release s = .next t
      ∧ (t.errcode ≠ .ok → t = { s with errcode := t.errcode, response := some .okay })
      ∧ (s.phase = .empty → t.errcode = .invalidState)
      ∧ (s.phase ≠ .empty → t.errcode = .ok))

/-! ### The index store (spec/41_index_store.md) -/

/-- R153: which command is legal in which phase, and the phase after it. In a phase where the command is legal it
is never InvalidStateError; where it is not, it always is, and the phase stays. -/
def Obligations.LifecycleTable : Prop :=
  ∀ s : State,
    (∃ t, exec .alloc s = .next t
      ∧ (s.phase ≠ .empty → t.errcode = .invalidState)
      ∧ (s.phase = .empty → t.errcode ≠ .invalidState)
      ∧ (t.errcode = .ok → s.phase = .empty ∧ t.phase = .allocated)
      ∧ (t.errcode ≠ .ok → t.phase = s.phase))
    ∧ (∃ t, exec .init s = .next t
      ∧ (s.phase ≠ .allocated → t.errcode = .invalidState ∧ t.phase = s.phase)
      ∧ (s.phase = .allocated → t.errcode = .ok ∧ t.phase = .ready))
    ∧ (∃ t, exec .insert s = .next t
      ∧ (s.phase ≠ .ready → t.errcode = .invalidState)
      ∧ (s.phase = .ready → t.errcode ≠ .invalidState)
      ∧ t.phase = s.phase)
    ∧ (∃ t, exec .search s = .next t
      ∧ (s.phase ≠ .ready → t.errcode = .invalidState)
      ∧ (s.phase = .ready → t.errcode ≠ .invalidState)
      ∧ t.phase = s.phase)
    ∧ (∃ t, exec .release s = .next t
      ∧ (s.phase = .empty → t.errcode = .invalidState ∧ t.phase = .empty)
      ∧ (s.phase ≠ .empty → t.errcode = .ok ∧ t.phase = .empty))

/-- R141: a capacity is legal exactly when it is nonzero, a multiple of 64 and a power of two, that is, 2^k with
6 <= k <= 63; any other is ConfigError, whichever condition fails, and none is rounded. -/
def Obligations.LegalCapacities : Prop :=
  (∀ c : Word, (legalCap c = true ↔ c.toNat ≠ 0 ∧ c.toNat % 64 = 0 ∧ ∃ k, c.toNat = 2 ^ k)
    ∧ (legalCap c = true ↔ ∃ k, 6 ≤ k ∧ k ≤ 63 ∧ c.toNat = 2 ^ k)
    ∧ (legalCap c = true ↔ c ≠ 0#64 ∧ c &&& (c - 1#64) = 0#64 ∧ c.extractLsb' 0 6 = 0#6))
  ∧ ∀ s : State, s.phase = .empty → legalCap s.arg0 = false →
      exec .alloc s = .next { s with errcode := .configError, response := some .okay }

/-- R142, R144: the other failures of ALLOC. A legal capacity above the physical storage is AllocationError, one
that fits never fails, an illegal one is ConfigError whatever its size; outside EMPTY the existing index stays
as it is. -/
def Obligations.AllocFailures : Prop :=
  ∀ s : State,
    (s.phase = .empty → legalCap s.arg0 = true → 2 ^ s.params.capLog2Max < s.arg0.toNat →
      exec .alloc s = .next { s with errcode := .allocationError, response := some .okay })
    ∧ (s.phase = .empty → legalCap s.arg0 = true → s.arg0.toNat ≤ 2 ^ s.params.capLog2Max →
      ∃ t, exec .alloc s = .next t ∧ t.errcode = .ok ∧ t.phase = .allocated)
    ∧ (s.phase = .empty → legalCap s.arg0 = false →
      exec .alloc s = .next { s with errcode := .configError, response := some .okay })
    ∧ (s.phase ≠ .empty →
      exec .alloc s = .next { s with errcode := .invalidState, response := some .okay })

/-- ALLOC of a legal capacity 2^k that fits: CAPBITS, MASK, PHASE and ERRCODE are as R140 says, exactly the
`2^k / 64` words of the index become 0 and every other word stays, nothing else changes; R143: the BITS window
then holds exactly `2^k / 64` words, all 0. -/
def Obligations.AllocGrantsZeroedWords : Prop :=
  ∀ (s : State) (k : Nat), s.phase = .empty → 6 ≤ k → k ≤ s.params.capLog2Max → s.arg0.toNat = 2 ^ k →
    ∃ t, exec .alloc s = .next t
      ∧ t = { s with
          bits := t.bits, capbits := s.arg0, mask := s.arg0 - 1#64, phase := .allocated, errcode := .ok,
          response := some .okay }
      ∧ (∀ w, t.bitsWord w = if w < 2 ^ k / 64 then 0#64 else s.bitsWord w)
      ∧ (∀ w : Word, w.toNat < 2 ^ k / 64 →
          exec (.rdbits w) t = .next { t with response := some (.okayData 0#64) })
      ∧ (∀ w : Word, 2 ^ k / 64 ≤ w.toNat → exec (.rdbits w) t = .next { t with response := some .fault })

/-- INIT in ALLOCATED fills T with outputs 65 to 320 of the generator seeded with `(seed, GEN_CONST)`, 64
outputs being discarded, an output being the sum of the two updated words (R131, R132, R134); it writes PHASE,
ERRCODE, T, G0 and G1 and nothing else. That G0 and G1 hold the state of the 320th step after INIT has ended is
the model's reading and no rule (log 8, DEDUCED). -/
def Obligations.InitFillsTheTable : Prop :=
  ∀ s : State, s.phase = .allocated →
    ∃ t, exec .init s = .next t
      ∧ t = { s with
          table := t.table, g0 := t.g0, g1 := t.g1, phase := .ready, errcode := .ok, response := some .okay }
      ∧ (∀ b : Fin 256, t.table[b] =
          (let g := (fun g : Word × Word => xsOf s.params.generator g.1 g.2)^[65 + b.val]
              (s.arg0, 0x00000000DEADBEEF#64)
           g.1 + g.2))
      ∧ (t.g0, t.g1) =
          (fun g : Word × Word => xsOf s.params.generator g.1 g.2)^[320] (s.arg0, 0x00000000DEADBEEF#64)

/-- R41: with the generator's parameters fixed, T after INIT is a function of the seed alone. -/
def Obligations.TableDependsOnSeedAlone : Prop :=
  ∀ s s' : State, s.phase = .allocated → s'.phase = .allocated →
    s.params.generator = s'.params.generator → s.arg0 = s'.arg0 →
      ∃ t t', exec .init s = .next t ∧ exec .init s' = .next t' ∧ t.phase = .ready ∧ t'.phase = .ready
        ∧ t.table = t'.table

/-- R147: INIT in EMPTY or in READY raises InvalidStateError and the table of a live index does not change. -/
def Obligations.InitOnlyOnce : Prop :=
  ∀ s : State, s.phase = .empty ∨ s.phase = .ready →
    exec .init s = .next { s with errcode := .invalidState, response := some .okay }

/-- R150, R152: RELEASE. In ALLOCATED and READY it closes the index and both windows, and no command on an index
is legal afterwards; TXT, RES, RCOUNT, RET_HASH and the ARG registers stay; what becomes of BITS and T is left
open (R151, log 6). In EMPTY it fails and changes nothing else. -/
def Obligations.ReleaseClosesTheIndex : Prop :=
  ∀ s : State,
    (s.phase ≠ .empty → ∃ t, exec .release s = .next t
      ∧ t = { s with
          phase := .empty, capbits := 0#64, mask := 0#64, errcode := .ok, response := some .okay,
          bits := t.bits, table := t.table }
      ∧ (∀ w, exec (.rdbits w) t = .next { t with response := some .fault })
      ∧ (∀ b, exec (.rdtab b) t = .next { t with response := some .fault })
      ∧ exec .init t = .next { t with errcode := .invalidState }
      ∧ exec .insert t = .next { t with errcode := .invalidState }
      ∧ exec .search t = .next { t with errcode := .invalidState }
      ∧ exec .release t = .next { t with errcode := .invalidState })
    ∧ (s.phase = .empty →
      exec .release s = .next { s with errcode := .invalidState, response := some .okay })

/-! ### The rolling hash (spec/42_insert.md) -/

/-- The hash step is a rotation right by one bit and a xor with the table entry (R160). -/
def Obligations.RollIsRotateThenXor : Prop :=
  (∀ a : Word, ror1 a = a.rotateRight 1)
  ∧ (∀ a : Word, (ror1 a).getLsbD 63 = a.getLsbD 0)
  ∧ (∀ (a : Word) (i : Nat), i < 63 → (ror1 a).getLsbD i = a.getLsbD (i + 1))
  ∧ ∀ (t : Vector Word 256) (h : Word) (b : Byte), some (roll t h b) = t[b.toNat]?.map (ror1 h ^^^ ·)

/-- R163: the closed form of the hash, its one- and two-byte cases, and that bytes 64 positions apart may be
exchanged. -/
def Obligations.HashClosedForm : Prop :=
  ∀ t : Vector Word 256,
    (∀ w : List Byte, wordHash t w =
      ((List.range w.length).map
        (fun i => (tableEntry t (w.getD i 0#8)).rotateRight (w.length - 1 - i))).foldr (· ^^^ ·) 0#64)
    ∧ (∀ b : Byte, wordHash t [b] = tableEntry t b)
    ∧ (∀ b c : Byte, wordHash t [b, c] = ror1 (tableEntry t b) ^^^ tableEntry t c)
    ∧ ∀ (u v z : List Byte) (b c : Byte), v.length = 63 →
        wordHash t (u ++ [b] ++ v ++ [c] ++ z) = wordHash t (u ++ [c] ++ v ++ [b] ++ z)

/-- SetBit ORs one bit into one word; TestBit then sees slot `p` set and every other slot as before (R43, R162,
R181). -/
def Obligations.SetBitSetsOneSlot : Prop :=
  ∀ (s : State) (p : Word),
    (∀ w : Nat, (s.setBit p).bitsWord w
      = if w = p.toNat / 64 then s.bitsWord w ||| (1#64 <<< (p.toNat % 64)) else s.bitsWord w)
    ∧ s.setBit p = { s with bits := (s.setBit p).bits }
    ∧ (∀ q : Word, (s.setBit p).testBit q = true ↔ s.testBit q = true ∨ q = p)
    ∧ ∀ q : Word, s.testBit q = (s.bitsWord (q.toNat / 64)).getLsbD (q.toNat % 64)

/-- R77: the two slots of a hash, and the word and bit of a slot; where the index is legal they lie inside it, and
the terminator slot is the slot after the prefix slot, wrapping from CAPBITS-1 to 0, and never the prefix slot itself. -/
def Obligations.SlotsLieInsideTheIndex : Prop :=
  ∀ (s : State) (h : Word), s.IndexLegal → s.phase ≠ .empty →
    prefixSlot s.mask h = h &&& s.mask
    ∧ terminatorSlot s.mask h = (h + 1#64) &&& s.mask
    ∧ (∀ p : Word, slotWord p = p.toNat / 64 ∧ slotBit p = p.toNat % 64)
    ∧ (prefixSlot s.mask h).toNat < s.capbits.toNat
    ∧ (terminatorSlot s.mask h).toNat < s.capbits.toNat
    ∧ slotWord (prefixSlot s.mask h) < s.capbits.toNat / 64
    ∧ slotWord (terminatorSlot s.mask h) < s.capbits.toNat / 64
    ∧ terminatorSlot s.mask h = ((h &&& s.mask) + 1#64) &&& s.mask
    ∧ ((prefixSlot s.mask h).toNat + 1 < s.capbits.toNat →
        (terminatorSlot s.mask h).toNat = (prefixSlot s.mask h).toNat + 1)
    ∧ ((prefixSlot s.mask h).toNat + 1 = s.capbits.toNat → terminatorSlot s.mask h = 0#64)
    ∧ terminatorSlot s.mask h ≠ prefixSlot s.mask h

/-! ### INSERT (spec/42_insert.md) -/

/-- R171 (with R167 and R169): a successful INSERT of the word `w` sets exactly the slots of `S(w)`, one per prefix and the
terminator, writes `H(w)` to RET_HASH, and changes nothing else but ERRCODE and the working registers; words
outside the index stay. `S(w)` has 1 slot for the empty word and between 2 and `n + 1` otherwise. -/
def Obligations.InsertOrsTheSlotsOfTheWord : Prop :=
  ∀ s : State, s.IndexLegal → s.phase = .ready → s.arg0.toNat ≤ s.params.txtBytes →
    s.arg1.toNat ≤ s.params.txtBytes - s.arg0.toNat →
      let w := s.textBytes s.arg0.toNat s.arg1.toNat
      let slots := insertSlots s.table s.mask w
      ∃ t, exec .insert s = .next t
        ∧ t = { s with
            bits := t.bits, retHash := wordHash s.table w, errcode := .ok, response := some .okay,
            scH := t.scH, scS := t.scS, scLen := t.scLen }
        ∧ (∀ p : Word, t.testBit p = true ↔ s.testBit p = true ∨ p ∈ slots)
        ∧ (∀ x : Nat, s.capbits.toNat / 64 ≤ x → t.bitsWord x = s.bitsWord x)
        ∧ (w.length = 0 → slots.toFinset.card = 1)
        ∧ (1 ≤ w.length → 2 ≤ slots.toFinset.card ∧ slots.toFinset.card ≤ w.length + 1)

/-- R170: when INSERT fails, it sets no bit and does not write RET_HASH. -/
def Obligations.InsertFailures : Prop :=
  ∀ s : State,
    (s.phase ≠ .ready → exec .insert s = .next { s with errcode := .invalidState, response := some .okay })
    ∧ (s.phase = .ready →
        (s.params.txtBytes < s.arg0.toNat ∨ s.params.txtBytes - s.arg0.toNat < s.arg1.toNat) →
        exec .insert s = .next { s with errcode := .operandError, response := some .okay })
    ∧ (s.phase = .ready → s.arg0.toNat ≤ s.params.txtBytes →
        s.arg1.toNat ≤ s.params.txtBytes - s.arg0.toNat →
        ∃ t, exec .insert s = .next t ∧ t.errcode = .ok)

/-- The empty word (R166): INSERT sets slot 1 and no other, returns 0, and reads no byte of TXT. -/
def Obligations.EmptyWordSetsSlotOne : Prop :=
  ∀ s : State, s.IndexLegal → s.phase = .ready → s.arg0.toNat ≤ s.params.txtBytes → s.arg1 = 0#64 →
    ∃ t, exec .insert s = .next t
      ∧ t.retHash = 0#64 ∧ t.errcode = .ok
      ∧ t.bitsWord 0 = s.bitsWord 0 ||| 2#64
      ∧ (∀ x, x ≠ 0 → t.bitsWord x = s.bitsWord x)
      ∧ ∀ m : Memory, exec .insert { s with txt := m } = .next { t with txt := m }

/-- R172 carried over to bytes no rule gives a value: after any sequence of successful INSERTs the bit array is
what it was with the slots of `S(w)` of the words inserted; so it depends on the set of words only, not on their
order, their repetition or where in the text they stood, it is the same in every block with an equal index, and no
bit is cleared. Where a byte of a word was never written, that every INSERT reads it alike is the model's choice
(log 4, DESIGN CHOICE). -/
def Obligations.InsertsDependOnTheSetOfWords : Prop :=
  ∀ (s s' : State) (ops ops' : List (Word × Word)), s.Inv → s'.Inv → s.phase = .ready → s'.phase = .ready →
    s'.table = s.table → s'.mask = s.mask → s'.bits = s.bits →
    (∀ o ∈ ops, o.1.toNat ≤ s.params.txtBytes ∧ o.2.toNat ≤ s.params.txtBytes - o.1.toNat) →
    (∀ o ∈ ops', o.1.toNat ≤ s'.params.txtBytes ∧ o.2.toNat ≤ s'.params.txtBytes - o.1.toNat) →
    (∀ w, w ∈ ops.map s.wordAt ↔ w ∈ ops'.map s'.wordAt) →
      ∃ t t', s.insertAll ops = .next t ∧ s'.insertAll ops' = .next t'
        ∧ t'.bits = t.bits
        ∧ (∀ p : Word, t.testBit p = true ↔
            s.testBit p = true ∨ ∃ w ∈ ops.map s.wordAt, p ∈ insertSlots s.table s.mask w)
        ∧ ∀ p : Word, s.testBit p = true → t.testBit p = true

/-! ### SEARCH (spec/43_search.md) -/

/-- SEARCH returns the first `max` candidates of the text, by rising start and then rising length, each as the
record of its start, its length and its hash; RCOUNT is their number; no record has length 0 or passes the end
of the text, and no two have the same start and length; an empty text gives none (R190). Nothing else changes
but ERRCODE and the working registers. SEARCH writes no record at RCOUNT and above (R47); that those records
therefore read as before is the model's choice, since the spec gives them no defined value (log 7, DESIGN
CHOICE). -/
def Obligations.SearchReturnsTheFirstCandidates : Prop :=
  ∀ s : State, s.phase = .ready → s.arg0.toNat ≤ s.params.txtBytes →
    s.arg1.toNat ≤ s.params.txtBytes - s.arg0.toNat → 1 ≤ s.arg2.toNat → s.arg2.toNat ≤ s.params.resEntries →
      let text := s.textBytes s.arg0.toNat s.arg1.toNat
      ∃ t, exec .search s = .next t
        ∧ t = { s with
            res := t.res, rcount := t.rcount, errcode := .ok, response := some .okay,
            scH := t.scH, scS := t.scS, scLen := t.scLen, scN := t.scN }
        ∧ t.records
            = ((s.candidates text).map (fun c => s.candidateRecord text c.1 c.2)).take s.arg2.toNat
        ∧ t.rcount.toNat = min s.arg2.toNat (s.candidates text).length
        ∧ (∀ i, t.rcount.toNat ≤ i → t.record i = s.record i)
        ∧ (∀ i < t.rcount.toNat, 1 ≤ (t.record i).length.toNat
            ∧ (t.record i).start.toNat + (t.record i).length.toNat ≤ s.arg1.toNat)
        ∧ (∀ i < t.rcount.toNat, ∀ j < t.rcount.toNat,
            (t.record i).start = (t.record j).start → (t.record i).length = (t.record j).length → i = j)
        ∧ (s.arg1 = 0#64 → t.rcount = 0#64)

/-- R194, R108: when SEARCH fails, it writes no record and leaves RCOUNT; the bound is not clamped; finding
nothing is a success. -/
def Obligations.SearchFailures : Prop :=
  ∀ s : State,
    (s.phase ≠ .ready → exec .search s = .next { s with errcode := .invalidState, response := some .okay })
    ∧ (s.phase = .ready →
        (s.params.txtBytes < s.arg0.toNat ∨ s.params.txtBytes - s.arg0.toNat < s.arg1.toNat
          ∨ s.arg2 = 0#64 ∨ s.params.resEntries < s.arg2.toNat) →
        exec .search s = .next { s with errcode := .operandError, response := some .okay })
    ∧ (s.phase = .ready → s.arg0.toNat ≤ s.params.txtBytes →
        s.arg1.toNat ≤ s.params.txtBytes - s.arg0.toNat → s.arg2 ≠ 0#64 →
        s.arg2.toNat ≤ s.params.resEntries →
        ∃ t, exec .search s = .next t ∧ t.errcode = .ok
          ∧ (s.candidates (s.textBytes s.arg0.toNat s.arg1.toNat) = [] → t.rcount = 0#64))

/-- R191: what SEARCH returns depends on T, MASK, the bits, the text's bytes and the bound only, not on where the
text stands nor on earlier searches; and it changes no bit. -/
def Obligations.SearchIsPure : Prop :=
  ∀ s s' : State, s.phase = .ready → s'.phase = .ready →
    s.arg0.toNat ≤ s.params.txtBytes → s.arg1.toNat ≤ s.params.txtBytes - s.arg0.toNat →
    s'.arg0.toNat ≤ s'.params.txtBytes → s'.arg1.toNat ≤ s'.params.txtBytes - s'.arg0.toNat →
    1 ≤ s.arg2.toNat → s.arg2.toNat ≤ s.params.resEntries → s'.arg2.toNat ≤ s'.params.resEntries →
    s'.table = s.table → s'.mask = s.mask → (∀ p : Word, s'.testBit p = s.testBit p) →
    s'.arg2 = s.arg2 →
    s'.textBytes s'.arg0.toNat s'.arg1.toNat = s.textBytes s.arg0.toNat s.arg1.toNat →
      ∃ t t', exec .search s = .next t ∧ exec .search s' = .next t'
        ∧ t'.rcount = t.rcount ∧ t'.records = t.records ∧ t.bits = s.bits ∧ t'.bits = s'.bits

/-- No false negatives (R192), the candidate: after a successful INSERT of a word of length m >= 1, in every
state with that table and mask and at least its set bits, a text that contains the word at an offset has the
candidate `(offset, m)`. -/
def Obligations.InsertedWordIsACandidate : Prop :=
  ∀ s : State, s.phase = .ready → s.arg0.toNat ≤ s.params.txtBytes →
    s.arg1.toNat ≤ s.params.txtBytes - s.arg0.toNat → 1 ≤ s.arg1.toNat →
      ∃ t, exec .insert s = .next t ∧ t.errcode = .ok
        ∧ ∀ (v : State) (text : List Byte) (start : Nat), v.table = t.table → v.mask = t.mask →
            (∀ p : Word, t.testBit p = true → v.testBit p = true) →
            start + s.arg1.toNat ≤ text.length →
            span text start s.arg1.toNat = s.textBytes s.arg0.toNat s.arg1.toNat →
              (start, s.arg1.toNat) ∈ v.candidates text

/-- No false negatives (R192), the record, and the consistency of the hash (R169): INSERT of a non-empty word,
then SEARCH of it with a bound of at least its length, returns the record of start 0, the word's length and the
hash INSERT returned. Where a byte of the word was never written, this rests on the model's choice that it reads
as the same free value in both commands (log 4, DESIGN CHOICE). -/
def Obligations.InsertThenSearchFindsTheWord : Prop :=
  ∀ (s : State) (k : Word), s.phase = .ready → s.arg0.toNat ≤ s.params.txtBytes →
    s.arg1.toNat ≤ s.params.txtBytes - s.arg0.toNat → 1 ≤ s.arg1.toNat → s.arg1.toNat ≤ k.toNat →
    k.toNat ≤ s.params.resEntries →
      ∃ t u, exec .insert s = .next t ∧ exec .search { t with arg2 := k } = .next u
        ∧ u.errcode = .ok
        ∧ { start := 0#64, length := s.arg1, hash := t.retHash } ∈ u.records

/-- R148: after ALLOC and INIT the index holds no bit, and SEARCH of any text with any bound finds nothing. -/
def Obligations.FreshIndexFindsNothing : Prop :=
  ∀ (s : State) (k : Nat) (seed : Word), s.phase = .empty → 6 ≤ k → k ≤ s.params.capLog2Max →
    s.arg0.toNat = 2 ^ k →
      ∃ t u, exec .alloc s = .next t ∧ exec .init { t with arg0 := seed } = .next u
        ∧ u.phase = .ready
        ∧ (∀ x < 2 ^ k / 64, u.bitsWord x = 0#64)
        ∧ ∀ (m : Memory) (a l max : Word), a.toNat ≤ s.params.txtBytes →
            l.toNat ≤ s.params.txtBytes - a.toNat → 1 ≤ max.toNat → max.toNat ≤ s.params.resEntries →
            ∃ v, exec .search { u with txt := m, arg0 := a, arg1 := l, arg2 := max } = .next v
              ∧ v.errcode = .ok ∧ v.rcount = 0#64
end

