-- ==== Sys2Proof/Laws/State.lean ====
section
/-! SUPPORT. What each named update does to each field of the state: one lemma per field and update. -/

namespace Sys2Proof.Machine

/-! ### `State.answer` -/

@[simp] theorem State.answer_params (r : Response) (s : State) : (s.answer r).params = s.params := rfl
@[simp] theorem State.answer_arg0 (r : Response) (s : State) : (s.answer r).arg0 = s.arg0 := rfl
@[simp] theorem State.answer_arg1 (r : Response) (s : State) : (s.answer r).arg1 = s.arg1 := rfl
@[simp] theorem State.answer_arg2 (r : Response) (s : State) : (s.answer r).arg2 = s.arg2 := rfl
@[simp] theorem State.answer_phase (r : Response) (s : State) : (s.answer r).phase = s.phase := rfl
@[simp] theorem State.answer_errcode (r : Response) (s : State) : (s.answer r).errcode = s.errcode := rfl
@[simp] theorem State.answer_retHash (r : Response) (s : State) : (s.answer r).retHash = s.retHash := rfl
@[simp] theorem State.answer_rcount (r : Response) (s : State) : (s.answer r).rcount = s.rcount := rfl
@[simp] theorem State.answer_capbits (r : Response) (s : State) : (s.answer r).capbits = s.capbits := rfl
@[simp] theorem State.answer_mask (r : Response) (s : State) : (s.answer r).mask = s.mask := rfl
@[simp] theorem State.answer_table (r : Response) (s : State) : (s.answer r).table = s.table := rfl
@[simp] theorem State.answer_bits (r : Response) (s : State) : (s.answer r).bits = s.bits := rfl
@[simp] theorem State.answer_txt (r : Response) (s : State) : (s.answer r).txt = s.txt := rfl
@[simp] theorem State.answer_res (r : Response) (s : State) : (s.answer r).res = s.res := rfl
@[simp] theorem State.answer_scH (r : Response) (s : State) : (s.answer r).scH = s.scH := rfl
@[simp] theorem State.answer_scS (r : Response) (s : State) : (s.answer r).scS = s.scS := rfl
@[simp] theorem State.answer_scLen (r : Response) (s : State) : (s.answer r).scLen = s.scLen := rfl
@[simp] theorem State.answer_scN (r : Response) (s : State) : (s.answer r).scN = s.scN := rfl
@[simp] theorem State.answer_g0 (r : Response) (s : State) : (s.answer r).g0 = s.g0 := rfl
@[simp] theorem State.answer_g1 (r : Response) (s : State) : (s.answer r).g1 = s.g1 := rfl
@[simp] theorem State.answer_resets (r : Response) (s : State) : (s.answer r).resets = s.resets := rfl
@[simp] theorem State.answer_pending (r : Response) (s : State) : (s.answer r).pending = s.pending := rfl
@[simp] theorem State.answer_response (r : Response) (s : State) : (s.answer r).response = some r := rfl

/-! ### `State.portFault` -/

@[simp] theorem State.portFault_params (s : State) : s.portFault.params = s.params := rfl
@[simp] theorem State.portFault_arg0 (s : State) : s.portFault.arg0 = s.arg0 := rfl
@[simp] theorem State.portFault_arg1 (s : State) : s.portFault.arg1 = s.arg1 := rfl
@[simp] theorem State.portFault_arg2 (s : State) : s.portFault.arg2 = s.arg2 := rfl
@[simp] theorem State.portFault_phase (s : State) : s.portFault.phase = s.phase := rfl
@[simp] theorem State.portFault_errcode (s : State) : s.portFault.errcode = s.errcode := rfl
@[simp] theorem State.portFault_retHash (s : State) : s.portFault.retHash = s.retHash := rfl
@[simp] theorem State.portFault_rcount (s : State) : s.portFault.rcount = s.rcount := rfl
@[simp] theorem State.portFault_capbits (s : State) : s.portFault.capbits = s.capbits := rfl
@[simp] theorem State.portFault_mask (s : State) : s.portFault.mask = s.mask := rfl
@[simp] theorem State.portFault_table (s : State) : s.portFault.table = s.table := rfl
@[simp] theorem State.portFault_bits (s : State) : s.portFault.bits = s.bits := rfl
@[simp] theorem State.portFault_txt (s : State) : s.portFault.txt = s.txt := rfl
@[simp] theorem State.portFault_res (s : State) : s.portFault.res = s.res := rfl
@[simp] theorem State.portFault_scH (s : State) : s.portFault.scH = s.scH := rfl
@[simp] theorem State.portFault_scS (s : State) : s.portFault.scS = s.scS := rfl
@[simp] theorem State.portFault_scLen (s : State) : s.portFault.scLen = s.scLen := rfl
@[simp] theorem State.portFault_scN (s : State) : s.portFault.scN = s.scN := rfl
@[simp] theorem State.portFault_g0 (s : State) : s.portFault.g0 = s.g0 := rfl
@[simp] theorem State.portFault_g1 (s : State) : s.portFault.g1 = s.g1 := rfl
@[simp] theorem State.portFault_resets (s : State) : s.portFault.resets = s.resets := rfl
@[simp] theorem State.portFault_pending (s : State) : s.portFault.pending = s.pending := rfl
@[simp] theorem State.portFault_response (s : State) : s.portFault.response = some .fault := rfl

/-! ### `State.endCommand` -/

@[simp] theorem State.endCommand_params (e : ErrCode) (s : State) : (s.endCommand e).params = s.params := rfl
@[simp] theorem State.endCommand_arg0 (e : ErrCode) (s : State) : (s.endCommand e).arg0 = s.arg0 := rfl
@[simp] theorem State.endCommand_arg1 (e : ErrCode) (s : State) : (s.endCommand e).arg1 = s.arg1 := rfl
@[simp] theorem State.endCommand_arg2 (e : ErrCode) (s : State) : (s.endCommand e).arg2 = s.arg2 := rfl
@[simp] theorem State.endCommand_phase (e : ErrCode) (s : State) : (s.endCommand e).phase = s.phase := rfl
@[simp] theorem State.endCommand_errcode (e : ErrCode) (s : State) : (s.endCommand e).errcode = e := rfl
@[simp] theorem State.endCommand_retHash (e : ErrCode) (s : State) : (s.endCommand e).retHash = s.retHash := rfl
@[simp] theorem State.endCommand_rcount (e : ErrCode) (s : State) : (s.endCommand e).rcount = s.rcount := rfl
@[simp] theorem State.endCommand_capbits (e : ErrCode) (s : State) : (s.endCommand e).capbits = s.capbits := rfl
@[simp] theorem State.endCommand_mask (e : ErrCode) (s : State) : (s.endCommand e).mask = s.mask := rfl
@[simp] theorem State.endCommand_table (e : ErrCode) (s : State) : (s.endCommand e).table = s.table := rfl
@[simp] theorem State.endCommand_bits (e : ErrCode) (s : State) : (s.endCommand e).bits = s.bits := rfl
@[simp] theorem State.endCommand_txt (e : ErrCode) (s : State) : (s.endCommand e).txt = s.txt := rfl
@[simp] theorem State.endCommand_res (e : ErrCode) (s : State) : (s.endCommand e).res = s.res := rfl
@[simp] theorem State.endCommand_scH (e : ErrCode) (s : State) : (s.endCommand e).scH = s.scH := rfl
@[simp] theorem State.endCommand_scS (e : ErrCode) (s : State) : (s.endCommand e).scS = s.scS := rfl
@[simp] theorem State.endCommand_scLen (e : ErrCode) (s : State) : (s.endCommand e).scLen = s.scLen := rfl
@[simp] theorem State.endCommand_scN (e : ErrCode) (s : State) : (s.endCommand e).scN = s.scN := rfl
@[simp] theorem State.endCommand_g0 (e : ErrCode) (s : State) : (s.endCommand e).g0 = s.g0 := rfl
@[simp] theorem State.endCommand_g1 (e : ErrCode) (s : State) : (s.endCommand e).g1 = s.g1 := rfl
@[simp] theorem State.endCommand_resets (e : ErrCode) (s : State) : (s.endCommand e).resets = s.resets := rfl
@[simp] theorem State.endCommand_pending (e : ErrCode) (s : State) : (s.endCommand e).pending = s.pending := rfl
@[simp] theorem State.endCommand_response (e : ErrCode) (s : State) : (s.endCommand e).response = some .okay := rfl

/-! ### `State.storeText` -/

@[simp] theorem State.storeText_params (a : Nat) (b : Byte) (s : State) : (s.storeText a b).params = s.params := rfl
@[simp] theorem State.storeText_arg0 (a : Nat) (b : Byte) (s : State) : (s.storeText a b).arg0 = s.arg0 := rfl
@[simp] theorem State.storeText_arg1 (a : Nat) (b : Byte) (s : State) : (s.storeText a b).arg1 = s.arg1 := rfl
@[simp] theorem State.storeText_arg2 (a : Nat) (b : Byte) (s : State) : (s.storeText a b).arg2 = s.arg2 := rfl
@[simp] theorem State.storeText_phase (a : Nat) (b : Byte) (s : State) : (s.storeText a b).phase = s.phase := rfl
@[simp] theorem State.storeText_errcode (a : Nat) (b : Byte) (s : State) : (s.storeText a b).errcode = s.errcode := rfl
@[simp] theorem State.storeText_retHash (a : Nat) (b : Byte) (s : State) : (s.storeText a b).retHash = s.retHash := rfl
@[simp] theorem State.storeText_rcount (a : Nat) (b : Byte) (s : State) : (s.storeText a b).rcount = s.rcount := rfl
@[simp] theorem State.storeText_capbits (a : Nat) (b : Byte) (s : State) : (s.storeText a b).capbits = s.capbits := rfl
@[simp] theorem State.storeText_mask (a : Nat) (b : Byte) (s : State) : (s.storeText a b).mask = s.mask := rfl
@[simp] theorem State.storeText_table (a : Nat) (b : Byte) (s : State) : (s.storeText a b).table = s.table := rfl
@[simp] theorem State.storeText_bits (a : Nat) (b : Byte) (s : State) : (s.storeText a b).bits = s.bits := rfl
@[simp] theorem State.storeText_txt (a : Nat) (b : Byte) (s : State) : (s.storeText a b).txt = Cells.write a b s.txt := rfl
@[simp] theorem State.storeText_res (a : Nat) (b : Byte) (s : State) : (s.storeText a b).res = s.res := rfl
@[simp] theorem State.storeText_scH (a : Nat) (b : Byte) (s : State) : (s.storeText a b).scH = s.scH := rfl
@[simp] theorem State.storeText_scS (a : Nat) (b : Byte) (s : State) : (s.storeText a b).scS = s.scS := rfl
@[simp] theorem State.storeText_scLen (a : Nat) (b : Byte) (s : State) : (s.storeText a b).scLen = s.scLen := rfl
@[simp] theorem State.storeText_scN (a : Nat) (b : Byte) (s : State) : (s.storeText a b).scN = s.scN := rfl
@[simp] theorem State.storeText_g0 (a : Nat) (b : Byte) (s : State) : (s.storeText a b).g0 = s.g0 := rfl
@[simp] theorem State.storeText_g1 (a : Nat) (b : Byte) (s : State) : (s.storeText a b).g1 = s.g1 := rfl
@[simp] theorem State.storeText_resets (a : Nat) (b : Byte) (s : State) : (s.storeText a b).resets = s.resets := rfl
@[simp] theorem State.storeText_pending (a : Nat) (b : Byte) (s : State) : (s.storeText a b).pending = s.pending := rfl
@[simp] theorem State.storeText_response (a : Nat) (b : Byte) (s : State) : (s.storeText a b).response = s.response := rfl

/-! ### `State.storeBits` -/

@[simp] theorem State.storeBits_params (w : Nat) (v : Word) (s : State) : (s.storeBits w v).params = s.params := rfl
@[simp] theorem State.storeBits_arg0 (w : Nat) (v : Word) (s : State) : (s.storeBits w v).arg0 = s.arg0 := rfl
@[simp] theorem State.storeBits_arg1 (w : Nat) (v : Word) (s : State) : (s.storeBits w v).arg1 = s.arg1 := rfl
@[simp] theorem State.storeBits_arg2 (w : Nat) (v : Word) (s : State) : (s.storeBits w v).arg2 = s.arg2 := rfl
@[simp] theorem State.storeBits_phase (w : Nat) (v : Word) (s : State) : (s.storeBits w v).phase = s.phase := rfl
@[simp] theorem State.storeBits_errcode (w : Nat) (v : Word) (s : State) : (s.storeBits w v).errcode = s.errcode := rfl
@[simp] theorem State.storeBits_retHash (w : Nat) (v : Word) (s : State) : (s.storeBits w v).retHash = s.retHash := rfl
@[simp] theorem State.storeBits_rcount (w : Nat) (v : Word) (s : State) : (s.storeBits w v).rcount = s.rcount := rfl
@[simp] theorem State.storeBits_capbits (w : Nat) (v : Word) (s : State) : (s.storeBits w v).capbits = s.capbits := rfl
@[simp] theorem State.storeBits_mask (w : Nat) (v : Word) (s : State) : (s.storeBits w v).mask = s.mask := rfl
@[simp] theorem State.storeBits_table (w : Nat) (v : Word) (s : State) : (s.storeBits w v).table = s.table := rfl
@[simp] theorem State.storeBits_bits (w : Nat) (v : Word) (s : State) : (s.storeBits w v).bits = Cells.writeBits w v s.bits := rfl
@[simp] theorem State.storeBits_txt (w : Nat) (v : Word) (s : State) : (s.storeBits w v).txt = s.txt := rfl
@[simp] theorem State.storeBits_res (w : Nat) (v : Word) (s : State) : (s.storeBits w v).res = s.res := rfl
@[simp] theorem State.storeBits_scH (w : Nat) (v : Word) (s : State) : (s.storeBits w v).scH = s.scH := rfl
@[simp] theorem State.storeBits_scS (w : Nat) (v : Word) (s : State) : (s.storeBits w v).scS = s.scS := rfl
@[simp] theorem State.storeBits_scLen (w : Nat) (v : Word) (s : State) : (s.storeBits w v).scLen = s.scLen := rfl
@[simp] theorem State.storeBits_scN (w : Nat) (v : Word) (s : State) : (s.storeBits w v).scN = s.scN := rfl
@[simp] theorem State.storeBits_g0 (w : Nat) (v : Word) (s : State) : (s.storeBits w v).g0 = s.g0 := rfl
@[simp] theorem State.storeBits_g1 (w : Nat) (v : Word) (s : State) : (s.storeBits w v).g1 = s.g1 := rfl
@[simp] theorem State.storeBits_resets (w : Nat) (v : Word) (s : State) : (s.storeBits w v).resets = s.resets := rfl
@[simp] theorem State.storeBits_pending (w : Nat) (v : Word) (s : State) : (s.storeBits w v).pending = s.pending := rfl
@[simp] theorem State.storeBits_response (w : Nat) (v : Word) (s : State) : (s.storeBits w v).response = s.response := rfl

/-! ### `State.setBit` -/

@[simp] theorem State.setBit_params (p : Word) (s : State) : (s.setBit p).params = s.params := rfl
@[simp] theorem State.setBit_arg0 (p : Word) (s : State) : (s.setBit p).arg0 = s.arg0 := rfl
@[simp] theorem State.setBit_arg1 (p : Word) (s : State) : (s.setBit p).arg1 = s.arg1 := rfl
@[simp] theorem State.setBit_arg2 (p : Word) (s : State) : (s.setBit p).arg2 = s.arg2 := rfl
@[simp] theorem State.setBit_phase (p : Word) (s : State) : (s.setBit p).phase = s.phase := rfl
@[simp] theorem State.setBit_errcode (p : Word) (s : State) : (s.setBit p).errcode = s.errcode := rfl
@[simp] theorem State.setBit_retHash (p : Word) (s : State) : (s.setBit p).retHash = s.retHash := rfl
@[simp] theorem State.setBit_rcount (p : Word) (s : State) : (s.setBit p).rcount = s.rcount := rfl
@[simp] theorem State.setBit_capbits (p : Word) (s : State) : (s.setBit p).capbits = s.capbits := rfl
@[simp] theorem State.setBit_mask (p : Word) (s : State) : (s.setBit p).mask = s.mask := rfl
@[simp] theorem State.setBit_table (p : Word) (s : State) : (s.setBit p).table = s.table := rfl
@[simp] theorem State.setBit_bits (p : Word) (s : State) : (s.setBit p).bits = Cells.writeBits (slotWord p) (s.bitsWord (slotWord p) ||| (1#64 <<< slotBit p)) s.bits := rfl
@[simp] theorem State.setBit_txt (p : Word) (s : State) : (s.setBit p).txt = s.txt := rfl
@[simp] theorem State.setBit_res (p : Word) (s : State) : (s.setBit p).res = s.res := rfl
@[simp] theorem State.setBit_scH (p : Word) (s : State) : (s.setBit p).scH = s.scH := rfl
@[simp] theorem State.setBit_scS (p : Word) (s : State) : (s.setBit p).scS = s.scS := rfl
@[simp] theorem State.setBit_scLen (p : Word) (s : State) : (s.setBit p).scLen = s.scLen := rfl
@[simp] theorem State.setBit_scN (p : Word) (s : State) : (s.setBit p).scN = s.scN := rfl
@[simp] theorem State.setBit_g0 (p : Word) (s : State) : (s.setBit p).g0 = s.g0 := rfl
@[simp] theorem State.setBit_g1 (p : Word) (s : State) : (s.setBit p).g1 = s.g1 := rfl
@[simp] theorem State.setBit_resets (p : Word) (s : State) : (s.setBit p).resets = s.resets := rfl
@[simp] theorem State.setBit_pending (p : Word) (s : State) : (s.setBit p).pending = s.pending := rfl
@[simp] theorem State.setBit_response (p : Word) (s : State) : (s.setBit p).response = s.response := rfl

/-! ### `State.zeroBits` -/

@[simp] theorem State.zeroBits_params (n : Nat) (s : State) : (s.zeroBits n).params = s.params := rfl
@[simp] theorem State.zeroBits_arg0 (n : Nat) (s : State) : (s.zeroBits n).arg0 = s.arg0 := rfl
@[simp] theorem State.zeroBits_arg1 (n : Nat) (s : State) : (s.zeroBits n).arg1 = s.arg1 := rfl
@[simp] theorem State.zeroBits_arg2 (n : Nat) (s : State) : (s.zeroBits n).arg2 = s.arg2 := rfl
@[simp] theorem State.zeroBits_phase (n : Nat) (s : State) : (s.zeroBits n).phase = s.phase := rfl
@[simp] theorem State.zeroBits_errcode (n : Nat) (s : State) : (s.zeroBits n).errcode = s.errcode := rfl
@[simp] theorem State.zeroBits_retHash (n : Nat) (s : State) : (s.zeroBits n).retHash = s.retHash := rfl
@[simp] theorem State.zeroBits_rcount (n : Nat) (s : State) : (s.zeroBits n).rcount = s.rcount := rfl
@[simp] theorem State.zeroBits_capbits (n : Nat) (s : State) : (s.zeroBits n).capbits = s.capbits := rfl
@[simp] theorem State.zeroBits_mask (n : Nat) (s : State) : (s.zeroBits n).mask = s.mask := rfl
@[simp] theorem State.zeroBits_table (n : Nat) (s : State) : (s.zeroBits n).table = s.table := rfl
@[simp] theorem State.zeroBits_bits (n : Nat) (s : State) : (s.zeroBits n).bits = s.bits.filter (fun e => n ≤ e.1) := rfl
@[simp] theorem State.zeroBits_txt (n : Nat) (s : State) : (s.zeroBits n).txt = s.txt := rfl
@[simp] theorem State.zeroBits_res (n : Nat) (s : State) : (s.zeroBits n).res = s.res := rfl
@[simp] theorem State.zeroBits_scH (n : Nat) (s : State) : (s.zeroBits n).scH = s.scH := rfl
@[simp] theorem State.zeroBits_scS (n : Nat) (s : State) : (s.zeroBits n).scS = s.scS := rfl
@[simp] theorem State.zeroBits_scLen (n : Nat) (s : State) : (s.zeroBits n).scLen = s.scLen := rfl
@[simp] theorem State.zeroBits_scN (n : Nat) (s : State) : (s.zeroBits n).scN = s.scN := rfl
@[simp] theorem State.zeroBits_g0 (n : Nat) (s : State) : (s.zeroBits n).g0 = s.g0 := rfl
@[simp] theorem State.zeroBits_g1 (n : Nat) (s : State) : (s.zeroBits n).g1 = s.g1 := rfl
@[simp] theorem State.zeroBits_resets (n : Nat) (s : State) : (s.zeroBits n).resets = s.resets := rfl
@[simp] theorem State.zeroBits_pending (n : Nat) (s : State) : (s.zeroBits n).pending = s.pending := rfl
@[simp] theorem State.zeroBits_response (n : Nat) (s : State) : (s.zeroBits n).response = s.response := rfl

/-! ### `State.storeRecord` -/

@[simp] theorem State.storeRecord_params (i : Nat) (r : MatchRecord) (s : State) : (s.storeRecord i r).params = s.params := rfl
@[simp] theorem State.storeRecord_arg0 (i : Nat) (r : MatchRecord) (s : State) : (s.storeRecord i r).arg0 = s.arg0 := rfl
@[simp] theorem State.storeRecord_arg1 (i : Nat) (r : MatchRecord) (s : State) : (s.storeRecord i r).arg1 = s.arg1 := rfl
@[simp] theorem State.storeRecord_arg2 (i : Nat) (r : MatchRecord) (s : State) : (s.storeRecord i r).arg2 = s.arg2 := rfl
@[simp] theorem State.storeRecord_phase (i : Nat) (r : MatchRecord) (s : State) : (s.storeRecord i r).phase = s.phase := rfl
@[simp] theorem State.storeRecord_errcode (i : Nat) (r : MatchRecord) (s : State) : (s.storeRecord i r).errcode = s.errcode := rfl
@[simp] theorem State.storeRecord_retHash (i : Nat) (r : MatchRecord) (s : State) : (s.storeRecord i r).retHash = s.retHash := rfl
@[simp] theorem State.storeRecord_rcount (i : Nat) (r : MatchRecord) (s : State) : (s.storeRecord i r).rcount = s.rcount := rfl
@[simp] theorem State.storeRecord_capbits (i : Nat) (r : MatchRecord) (s : State) : (s.storeRecord i r).capbits = s.capbits := rfl
@[simp] theorem State.storeRecord_mask (i : Nat) (r : MatchRecord) (s : State) : (s.storeRecord i r).mask = s.mask := rfl
@[simp] theorem State.storeRecord_table (i : Nat) (r : MatchRecord) (s : State) : (s.storeRecord i r).table = s.table := rfl
@[simp] theorem State.storeRecord_bits (i : Nat) (r : MatchRecord) (s : State) : (s.storeRecord i r).bits = s.bits := rfl
@[simp] theorem State.storeRecord_txt (i : Nat) (r : MatchRecord) (s : State) : (s.storeRecord i r).txt = s.txt := rfl
@[simp] theorem State.storeRecord_res (i : Nat) (r : MatchRecord) (s : State) : (s.storeRecord i r).res = Cells.write i r s.res := rfl
@[simp] theorem State.storeRecord_scH (i : Nat) (r : MatchRecord) (s : State) : (s.storeRecord i r).scH = s.scH := rfl
@[simp] theorem State.storeRecord_scS (i : Nat) (r : MatchRecord) (s : State) : (s.storeRecord i r).scS = s.scS := rfl
@[simp] theorem State.storeRecord_scLen (i : Nat) (r : MatchRecord) (s : State) : (s.storeRecord i r).scLen = s.scLen := rfl
@[simp] theorem State.storeRecord_scN (i : Nat) (r : MatchRecord) (s : State) : (s.storeRecord i r).scN = s.scN := rfl
@[simp] theorem State.storeRecord_g0 (i : Nat) (r : MatchRecord) (s : State) : (s.storeRecord i r).g0 = s.g0 := rfl
@[simp] theorem State.storeRecord_g1 (i : Nat) (r : MatchRecord) (s : State) : (s.storeRecord i r).g1 = s.g1 := rfl
@[simp] theorem State.storeRecord_resets (i : Nat) (r : MatchRecord) (s : State) : (s.storeRecord i r).resets = s.resets := rfl
@[simp] theorem State.storeRecord_pending (i : Nat) (r : MatchRecord) (s : State) : (s.storeRecord i r).pending = s.pending := rfl
@[simp] theorem State.storeRecord_response (i : Nat) (r : MatchRecord) (s : State) : (s.storeRecord i r).response = s.response := rfl

/-! ### `State.consume` -/

@[simp] theorem State.consume_params (a : Nat) (s : State) : (s.consume a).params = s.params := rfl
@[simp] theorem State.consume_arg0 (a : Nat) (s : State) : (s.consume a).arg0 = s.arg0 := rfl
@[simp] theorem State.consume_arg1 (a : Nat) (s : State) : (s.consume a).arg1 = s.arg1 := rfl
@[simp] theorem State.consume_arg2 (a : Nat) (s : State) : (s.consume a).arg2 = s.arg2 := rfl
@[simp] theorem State.consume_phase (a : Nat) (s : State) : (s.consume a).phase = s.phase := rfl
@[simp] theorem State.consume_errcode (a : Nat) (s : State) : (s.consume a).errcode = s.errcode := rfl
@[simp] theorem State.consume_retHash (a : Nat) (s : State) : (s.consume a).retHash = s.retHash := rfl
@[simp] theorem State.consume_rcount (a : Nat) (s : State) : (s.consume a).rcount = s.rcount := rfl
@[simp] theorem State.consume_capbits (a : Nat) (s : State) : (s.consume a).capbits = s.capbits := rfl
@[simp] theorem State.consume_mask (a : Nat) (s : State) : (s.consume a).mask = s.mask := rfl
@[simp] theorem State.consume_table (a : Nat) (s : State) : (s.consume a).table = s.table := rfl
@[simp] theorem State.consume_bits (a : Nat) (s : State) : (s.consume a).bits = s.bits := rfl
@[simp] theorem State.consume_txt (a : Nat) (s : State) : (s.consume a).txt = s.txt := rfl
@[simp] theorem State.consume_res (a : Nat) (s : State) : (s.consume a).res = s.res := rfl
@[simp] theorem State.consume_scH (a : Nat) (s : State) : (s.consume a).scH = roll s.table s.scH (s.textByte a) := rfl
@[simp] theorem State.consume_scS (a : Nat) (s : State) : (s.consume a).scS = s.scS := rfl
@[simp] theorem State.consume_scLen (a : Nat) (s : State) : (s.consume a).scLen = s.scLen + 1#64 := rfl
@[simp] theorem State.consume_scN (a : Nat) (s : State) : (s.consume a).scN = s.scN := rfl
@[simp] theorem State.consume_g0 (a : Nat) (s : State) : (s.consume a).g0 = s.g0 := rfl
@[simp] theorem State.consume_g1 (a : Nat) (s : State) : (s.consume a).g1 = s.g1 := rfl
@[simp] theorem State.consume_resets (a : Nat) (s : State) : (s.consume a).resets = s.resets := rfl
@[simp] theorem State.consume_pending (a : Nat) (s : State) : (s.consume a).pending = s.pending := rfl
@[simp] theorem State.consume_response (a : Nat) (s : State) : (s.consume a).response = s.response := rfl

/-! ### `State.emit` -/

@[simp] theorem State.emit_params (s : State) : s.emit.params = s.params := rfl
@[simp] theorem State.emit_arg0 (s : State) : s.emit.arg0 = s.arg0 := rfl
@[simp] theorem State.emit_arg1 (s : State) : s.emit.arg1 = s.arg1 := rfl
@[simp] theorem State.emit_arg2 (s : State) : s.emit.arg2 = s.arg2 := rfl
@[simp] theorem State.emit_phase (s : State) : s.emit.phase = s.phase := rfl
@[simp] theorem State.emit_errcode (s : State) : s.emit.errcode = s.errcode := rfl
@[simp] theorem State.emit_retHash (s : State) : s.emit.retHash = s.retHash := rfl
@[simp] theorem State.emit_rcount (s : State) : s.emit.rcount = s.rcount := rfl
@[simp] theorem State.emit_capbits (s : State) : s.emit.capbits = s.capbits := rfl
@[simp] theorem State.emit_mask (s : State) : s.emit.mask = s.mask := rfl
@[simp] theorem State.emit_table (s : State) : s.emit.table = s.table := rfl
@[simp] theorem State.emit_bits (s : State) : s.emit.bits = s.bits := rfl
@[simp] theorem State.emit_txt (s : State) : s.emit.txt = s.txt := rfl
@[simp] theorem State.emit_res (s : State) : s.emit.res = Cells.write s.scN.toNat { start := s.scS, length := s.scLen, hash := s.scH } s.res := rfl
@[simp] theorem State.emit_scH (s : State) : s.emit.scH = s.scH := rfl
@[simp] theorem State.emit_scS (s : State) : s.emit.scS = s.scS := rfl
@[simp] theorem State.emit_scLen (s : State) : s.emit.scLen = s.scLen := rfl
@[simp] theorem State.emit_scN (s : State) : s.emit.scN = s.scN + 1#64 := rfl
@[simp] theorem State.emit_g0 (s : State) : s.emit.g0 = s.g0 := rfl
@[simp] theorem State.emit_g1 (s : State) : s.emit.g1 = s.g1 := rfl
@[simp] theorem State.emit_resets (s : State) : s.emit.resets = s.resets := rfl
@[simp] theorem State.emit_pending (s : State) : s.emit.pending = s.pending := rfl
@[simp] theorem State.emit_response (s : State) : s.emit.response = s.response := rfl

/-! ### `State.runGenTable` -/

@[simp] theorem State.runGenTable_params (seed : Word) (s : State) : (s.runGenTable seed).params = s.params := rfl
@[simp] theorem State.runGenTable_arg0 (seed : Word) (s : State) : (s.runGenTable seed).arg0 = s.arg0 := rfl
@[simp] theorem State.runGenTable_arg1 (seed : Word) (s : State) : (s.runGenTable seed).arg1 = s.arg1 := rfl
@[simp] theorem State.runGenTable_arg2 (seed : Word) (s : State) : (s.runGenTable seed).arg2 = s.arg2 := rfl
@[simp] theorem State.runGenTable_phase (seed : Word) (s : State) : (s.runGenTable seed).phase = s.phase := rfl
@[simp] theorem State.runGenTable_errcode (seed : Word) (s : State) : (s.runGenTable seed).errcode = s.errcode := rfl
@[simp] theorem State.runGenTable_retHash (seed : Word) (s : State) : (s.runGenTable seed).retHash = s.retHash := rfl
@[simp] theorem State.runGenTable_rcount (seed : Word) (s : State) : (s.runGenTable seed).rcount = s.rcount := rfl
@[simp] theorem State.runGenTable_capbits (seed : Word) (s : State) : (s.runGenTable seed).capbits = s.capbits := rfl
@[simp] theorem State.runGenTable_mask (seed : Word) (s : State) : (s.runGenTable seed).mask = s.mask := rfl
@[simp] theorem State.runGenTable_table (seed : Word) (s : State) : (s.runGenTable seed).table = (genTable (xsOf s.params.generator) seed).1 := rfl
@[simp] theorem State.runGenTable_bits (seed : Word) (s : State) : (s.runGenTable seed).bits = s.bits := rfl
@[simp] theorem State.runGenTable_txt (seed : Word) (s : State) : (s.runGenTable seed).txt = s.txt := rfl
@[simp] theorem State.runGenTable_res (seed : Word) (s : State) : (s.runGenTable seed).res = s.res := rfl
@[simp] theorem State.runGenTable_scH (seed : Word) (s : State) : (s.runGenTable seed).scH = s.scH := rfl
@[simp] theorem State.runGenTable_scS (seed : Word) (s : State) : (s.runGenTable seed).scS = s.scS := rfl
@[simp] theorem State.runGenTable_scLen (seed : Word) (s : State) : (s.runGenTable seed).scLen = s.scLen := rfl
@[simp] theorem State.runGenTable_scN (seed : Word) (s : State) : (s.runGenTable seed).scN = s.scN := rfl
@[simp] theorem State.runGenTable_g0 (seed : Word) (s : State) : (s.runGenTable seed).g0 = (genTable (xsOf s.params.generator) seed).2.1 := rfl
@[simp] theorem State.runGenTable_g1 (seed : Word) (s : State) : (s.runGenTable seed).g1 = (genTable (xsOf s.params.generator) seed).2.2 := rfl
@[simp] theorem State.runGenTable_resets (seed : Word) (s : State) : (s.runGenTable seed).resets = s.resets := rfl
@[simp] theorem State.runGenTable_pending (seed : Word) (s : State) : (s.runGenTable seed).pending = s.pending := rfl
@[simp] theorem State.runGenTable_response (seed : Word) (s : State) : (s.runGenTable seed).response = s.response := rfl

/-! ### `State.openIndex` -/

@[simp] theorem State.openIndex_params (c : Word) (s : State) : (s.openIndex c).params = s.params := rfl
@[simp] theorem State.openIndex_arg0 (c : Word) (s : State) : (s.openIndex c).arg0 = s.arg0 := rfl
@[simp] theorem State.openIndex_arg1 (c : Word) (s : State) : (s.openIndex c).arg1 = s.arg1 := rfl
@[simp] theorem State.openIndex_arg2 (c : Word) (s : State) : (s.openIndex c).arg2 = s.arg2 := rfl
@[simp] theorem State.openIndex_phase (c : Word) (s : State) : (s.openIndex c).phase = .allocated := rfl
@[simp] theorem State.openIndex_errcode (c : Word) (s : State) : (s.openIndex c).errcode = s.errcode := rfl
@[simp] theorem State.openIndex_retHash (c : Word) (s : State) : (s.openIndex c).retHash = s.retHash := rfl
@[simp] theorem State.openIndex_rcount (c : Word) (s : State) : (s.openIndex c).rcount = s.rcount := rfl
@[simp] theorem State.openIndex_capbits (c : Word) (s : State) : (s.openIndex c).capbits = c := rfl
@[simp] theorem State.openIndex_mask (c : Word) (s : State) : (s.openIndex c).mask = c - 1#64 := rfl
@[simp] theorem State.openIndex_table (c : Word) (s : State) : (s.openIndex c).table = s.table := rfl
@[simp] theorem State.openIndex_bits (c : Word) (s : State) : (s.openIndex c).bits = s.bits := rfl
@[simp] theorem State.openIndex_txt (c : Word) (s : State) : (s.openIndex c).txt = s.txt := rfl
@[simp] theorem State.openIndex_res (c : Word) (s : State) : (s.openIndex c).res = s.res := rfl
@[simp] theorem State.openIndex_scH (c : Word) (s : State) : (s.openIndex c).scH = s.scH := rfl
@[simp] theorem State.openIndex_scS (c : Word) (s : State) : (s.openIndex c).scS = s.scS := rfl
@[simp] theorem State.openIndex_scLen (c : Word) (s : State) : (s.openIndex c).scLen = s.scLen := rfl
@[simp] theorem State.openIndex_scN (c : Word) (s : State) : (s.openIndex c).scN = s.scN := rfl
@[simp] theorem State.openIndex_g0 (c : Word) (s : State) : (s.openIndex c).g0 = s.g0 := rfl
@[simp] theorem State.openIndex_g1 (c : Word) (s : State) : (s.openIndex c).g1 = s.g1 := rfl
@[simp] theorem State.openIndex_resets (c : Word) (s : State) : (s.openIndex c).resets = s.resets := rfl
@[simp] theorem State.openIndex_pending (c : Word) (s : State) : (s.openIndex c).pending = s.pending := rfl
@[simp] theorem State.openIndex_response (c : Word) (s : State) : (s.openIndex c).response = s.response := rfl

/-! ### `State.closeIndex` -/

@[simp] theorem State.closeIndex_params (s : State) : s.closeIndex.params = s.params := rfl
@[simp] theorem State.closeIndex_arg0 (s : State) : s.closeIndex.arg0 = s.arg0 := rfl
@[simp] theorem State.closeIndex_arg1 (s : State) : s.closeIndex.arg1 = s.arg1 := rfl
@[simp] theorem State.closeIndex_arg2 (s : State) : s.closeIndex.arg2 = s.arg2 := rfl
@[simp] theorem State.closeIndex_phase (s : State) : s.closeIndex.phase = .empty := rfl
@[simp] theorem State.closeIndex_errcode (s : State) : s.closeIndex.errcode = s.errcode := rfl
@[simp] theorem State.closeIndex_retHash (s : State) : s.closeIndex.retHash = s.retHash := rfl
@[simp] theorem State.closeIndex_rcount (s : State) : s.closeIndex.rcount = s.rcount := rfl
@[simp] theorem State.closeIndex_capbits (s : State) : s.closeIndex.capbits = 0#64 := rfl
@[simp] theorem State.closeIndex_mask (s : State) : s.closeIndex.mask = 0#64 := rfl
@[simp] theorem State.closeIndex_table (s : State) : s.closeIndex.table = s.table := rfl
@[simp] theorem State.closeIndex_bits (s : State) : s.closeIndex.bits = s.bits := rfl
@[simp] theorem State.closeIndex_txt (s : State) : s.closeIndex.txt = s.txt := rfl
@[simp] theorem State.closeIndex_res (s : State) : s.closeIndex.res = s.res := rfl
@[simp] theorem State.closeIndex_scH (s : State) : s.closeIndex.scH = s.scH := rfl
@[simp] theorem State.closeIndex_scS (s : State) : s.closeIndex.scS = s.scS := rfl
@[simp] theorem State.closeIndex_scLen (s : State) : s.closeIndex.scLen = s.scLen := rfl
@[simp] theorem State.closeIndex_scN (s : State) : s.closeIndex.scN = s.scN := rfl
@[simp] theorem State.closeIndex_g0 (s : State) : s.closeIndex.g0 = s.g0 := rfl
@[simp] theorem State.closeIndex_g1 (s : State) : s.closeIndex.g1 = s.g1 := rfl
@[simp] theorem State.closeIndex_resets (s : State) : s.closeIndex.resets = s.resets := rfl
@[simp] theorem State.closeIndex_pending (s : State) : s.closeIndex.pending = s.pending := rfl
@[simp] theorem State.closeIndex_response (s : State) : s.closeIndex.response = s.response := rfl

/-! ### `State.markReady` -/

@[simp] theorem State.markReady_params (s : State) : s.markReady.params = s.params := rfl
@[simp] theorem State.markReady_arg0 (s : State) : s.markReady.arg0 = s.arg0 := rfl
@[simp] theorem State.markReady_arg1 (s : State) : s.markReady.arg1 = s.arg1 := rfl
@[simp] theorem State.markReady_arg2 (s : State) : s.markReady.arg2 = s.arg2 := rfl
@[simp] theorem State.markReady_phase (s : State) : s.markReady.phase = .ready := rfl
@[simp] theorem State.markReady_errcode (s : State) : s.markReady.errcode = s.errcode := rfl
@[simp] theorem State.markReady_retHash (s : State) : s.markReady.retHash = s.retHash := rfl
@[simp] theorem State.markReady_rcount (s : State) : s.markReady.rcount = s.rcount := rfl
@[simp] theorem State.markReady_capbits (s : State) : s.markReady.capbits = s.capbits := rfl
@[simp] theorem State.markReady_mask (s : State) : s.markReady.mask = s.mask := rfl
@[simp] theorem State.markReady_table (s : State) : s.markReady.table = s.table := rfl
@[simp] theorem State.markReady_bits (s : State) : s.markReady.bits = s.bits := rfl
@[simp] theorem State.markReady_txt (s : State) : s.markReady.txt = s.txt := rfl
@[simp] theorem State.markReady_res (s : State) : s.markReady.res = s.res := rfl
@[simp] theorem State.markReady_scH (s : State) : s.markReady.scH = s.scH := rfl
@[simp] theorem State.markReady_scS (s : State) : s.markReady.scS = s.scS := rfl
@[simp] theorem State.markReady_scLen (s : State) : s.markReady.scLen = s.scLen := rfl
@[simp] theorem State.markReady_scN (s : State) : s.markReady.scN = s.scN := rfl
@[simp] theorem State.markReady_g0 (s : State) : s.markReady.g0 = s.g0 := rfl
@[simp] theorem State.markReady_g1 (s : State) : s.markReady.g1 = s.g1 := rfl
@[simp] theorem State.markReady_resets (s : State) : s.markReady.resets = s.resets := rfl
@[simp] theorem State.markReady_pending (s : State) : s.markReady.pending = s.pending := rfl
@[simp] theorem State.markReady_response (s : State) : s.markReady.response = s.response := rfl

/-! ### `State.beginWord` -/

@[simp] theorem State.beginWord_params (s : State) : s.beginWord.params = s.params := rfl
@[simp] theorem State.beginWord_arg0 (s : State) : s.beginWord.arg0 = s.arg0 := rfl
@[simp] theorem State.beginWord_arg1 (s : State) : s.beginWord.arg1 = s.arg1 := rfl
@[simp] theorem State.beginWord_arg2 (s : State) : s.beginWord.arg2 = s.arg2 := rfl
@[simp] theorem State.beginWord_phase (s : State) : s.beginWord.phase = s.phase := rfl
@[simp] theorem State.beginWord_errcode (s : State) : s.beginWord.errcode = s.errcode := rfl
@[simp] theorem State.beginWord_retHash (s : State) : s.beginWord.retHash = s.retHash := rfl
@[simp] theorem State.beginWord_rcount (s : State) : s.beginWord.rcount = s.rcount := rfl
@[simp] theorem State.beginWord_capbits (s : State) : s.beginWord.capbits = s.capbits := rfl
@[simp] theorem State.beginWord_mask (s : State) : s.beginWord.mask = s.mask := rfl
@[simp] theorem State.beginWord_table (s : State) : s.beginWord.table = s.table := rfl
@[simp] theorem State.beginWord_bits (s : State) : s.beginWord.bits = s.bits := rfl
@[simp] theorem State.beginWord_txt (s : State) : s.beginWord.txt = s.txt := rfl
@[simp] theorem State.beginWord_res (s : State) : s.beginWord.res = s.res := rfl
@[simp] theorem State.beginWord_scH (s : State) : s.beginWord.scH = 0#64 := rfl
@[simp] theorem State.beginWord_scS (s : State) : s.beginWord.scS = 0#64 := rfl
@[simp] theorem State.beginWord_scLen (s : State) : s.beginWord.scLen = 0#64 := rfl
@[simp] theorem State.beginWord_scN (s : State) : s.beginWord.scN = s.scN := rfl
@[simp] theorem State.beginWord_g0 (s : State) : s.beginWord.g0 = s.g0 := rfl
@[simp] theorem State.beginWord_g1 (s : State) : s.beginWord.g1 = s.g1 := rfl
@[simp] theorem State.beginWord_resets (s : State) : s.beginWord.resets = s.resets := rfl
@[simp] theorem State.beginWord_pending (s : State) : s.beginWord.pending = s.pending := rfl
@[simp] theorem State.beginWord_response (s : State) : s.beginWord.response = s.response := rfl

/-! ### `State.returnHash` -/

@[simp] theorem State.returnHash_params (s : State) : s.returnHash.params = s.params := rfl
@[simp] theorem State.returnHash_arg0 (s : State) : s.returnHash.arg0 = s.arg0 := rfl
@[simp] theorem State.returnHash_arg1 (s : State) : s.returnHash.arg1 = s.arg1 := rfl
@[simp] theorem State.returnHash_arg2 (s : State) : s.returnHash.arg2 = s.arg2 := rfl
@[simp] theorem State.returnHash_phase (s : State) : s.returnHash.phase = s.phase := rfl
@[simp] theorem State.returnHash_errcode (s : State) : s.returnHash.errcode = s.errcode := rfl
@[simp] theorem State.returnHash_retHash (s : State) : s.returnHash.retHash = s.scH := rfl
@[simp] theorem State.returnHash_rcount (s : State) : s.returnHash.rcount = s.rcount := rfl
@[simp] theorem State.returnHash_capbits (s : State) : s.returnHash.capbits = s.capbits := rfl
@[simp] theorem State.returnHash_mask (s : State) : s.returnHash.mask = s.mask := rfl
@[simp] theorem State.returnHash_table (s : State) : s.returnHash.table = s.table := rfl
@[simp] theorem State.returnHash_bits (s : State) : s.returnHash.bits = s.bits := rfl
@[simp] theorem State.returnHash_txt (s : State) : s.returnHash.txt = s.txt := rfl
@[simp] theorem State.returnHash_res (s : State) : s.returnHash.res = s.res := rfl
@[simp] theorem State.returnHash_scH (s : State) : s.returnHash.scH = s.scH := rfl
@[simp] theorem State.returnHash_scS (s : State) : s.returnHash.scS = s.scS := rfl
@[simp] theorem State.returnHash_scLen (s : State) : s.returnHash.scLen = s.scLen := rfl
@[simp] theorem State.returnHash_scN (s : State) : s.returnHash.scN = s.scN := rfl
@[simp] theorem State.returnHash_g0 (s : State) : s.returnHash.g0 = s.g0 := rfl
@[simp] theorem State.returnHash_g1 (s : State) : s.returnHash.g1 = s.g1 := rfl
@[simp] theorem State.returnHash_resets (s : State) : s.returnHash.resets = s.resets := rfl
@[simp] theorem State.returnHash_pending (s : State) : s.returnHash.pending = s.pending := rfl
@[simp] theorem State.returnHash_response (s : State) : s.returnHash.response = s.response := rfl

/-! ### `State.beginText` -/

@[simp] theorem State.beginText_params (s : State) : s.beginText.params = s.params := rfl
@[simp] theorem State.beginText_arg0 (s : State) : s.beginText.arg0 = s.arg0 := rfl
@[simp] theorem State.beginText_arg1 (s : State) : s.beginText.arg1 = s.arg1 := rfl
@[simp] theorem State.beginText_arg2 (s : State) : s.beginText.arg2 = s.arg2 := rfl
@[simp] theorem State.beginText_phase (s : State) : s.beginText.phase = s.phase := rfl
@[simp] theorem State.beginText_errcode (s : State) : s.beginText.errcode = s.errcode := rfl
@[simp] theorem State.beginText_retHash (s : State) : s.beginText.retHash = s.retHash := rfl
@[simp] theorem State.beginText_rcount (s : State) : s.beginText.rcount = s.rcount := rfl
@[simp] theorem State.beginText_capbits (s : State) : s.beginText.capbits = s.capbits := rfl
@[simp] theorem State.beginText_mask (s : State) : s.beginText.mask = s.mask := rfl
@[simp] theorem State.beginText_table (s : State) : s.beginText.table = s.table := rfl
@[simp] theorem State.beginText_bits (s : State) : s.beginText.bits = s.bits := rfl
@[simp] theorem State.beginText_txt (s : State) : s.beginText.txt = s.txt := rfl
@[simp] theorem State.beginText_res (s : State) : s.beginText.res = s.res := rfl
@[simp] theorem State.beginText_scH (s : State) : s.beginText.scH = s.scH := rfl
@[simp] theorem State.beginText_scS (s : State) : s.beginText.scS = 0#64 := rfl
@[simp] theorem State.beginText_scLen (s : State) : s.beginText.scLen = s.scLen := rfl
@[simp] theorem State.beginText_scN (s : State) : s.beginText.scN = 0#64 := rfl
@[simp] theorem State.beginText_g0 (s : State) : s.beginText.g0 = s.g0 := rfl
@[simp] theorem State.beginText_g1 (s : State) : s.beginText.g1 = s.g1 := rfl
@[simp] theorem State.beginText_resets (s : State) : s.beginText.resets = s.resets := rfl
@[simp] theorem State.beginText_pending (s : State) : s.beginText.pending = s.pending := rfl
@[simp] theorem State.beginText_response (s : State) : s.beginText.response = s.response := rfl

/-! ### `State.beginOffset` -/

@[simp] theorem State.beginOffset_params (s : State) : s.beginOffset.params = s.params := rfl
@[simp] theorem State.beginOffset_arg0 (s : State) : s.beginOffset.arg0 = s.arg0 := rfl
@[simp] theorem State.beginOffset_arg1 (s : State) : s.beginOffset.arg1 = s.arg1 := rfl
@[simp] theorem State.beginOffset_arg2 (s : State) : s.beginOffset.arg2 = s.arg2 := rfl
@[simp] theorem State.beginOffset_phase (s : State) : s.beginOffset.phase = s.phase := rfl
@[simp] theorem State.beginOffset_errcode (s : State) : s.beginOffset.errcode = s.errcode := rfl
@[simp] theorem State.beginOffset_retHash (s : State) : s.beginOffset.retHash = s.retHash := rfl
@[simp] theorem State.beginOffset_rcount (s : State) : s.beginOffset.rcount = s.rcount := rfl
@[simp] theorem State.beginOffset_capbits (s : State) : s.beginOffset.capbits = s.capbits := rfl
@[simp] theorem State.beginOffset_mask (s : State) : s.beginOffset.mask = s.mask := rfl
@[simp] theorem State.beginOffset_table (s : State) : s.beginOffset.table = s.table := rfl
@[simp] theorem State.beginOffset_bits (s : State) : s.beginOffset.bits = s.bits := rfl
@[simp] theorem State.beginOffset_txt (s : State) : s.beginOffset.txt = s.txt := rfl
@[simp] theorem State.beginOffset_res (s : State) : s.beginOffset.res = s.res := rfl
@[simp] theorem State.beginOffset_scH (s : State) : s.beginOffset.scH = 0#64 := rfl
@[simp] theorem State.beginOffset_scS (s : State) : s.beginOffset.scS = s.scS := rfl
@[simp] theorem State.beginOffset_scLen (s : State) : s.beginOffset.scLen = 0#64 := rfl
@[simp] theorem State.beginOffset_scN (s : State) : s.beginOffset.scN = s.scN := rfl
@[simp] theorem State.beginOffset_g0 (s : State) : s.beginOffset.g0 = s.g0 := rfl
@[simp] theorem State.beginOffset_g1 (s : State) : s.beginOffset.g1 = s.g1 := rfl
@[simp] theorem State.beginOffset_resets (s : State) : s.beginOffset.resets = s.resets := rfl
@[simp] theorem State.beginOffset_pending (s : State) : s.beginOffset.pending = s.pending := rfl
@[simp] theorem State.beginOffset_response (s : State) : s.beginOffset.response = s.response := rfl

/-! ### `State.nextOffset` -/

@[simp] theorem State.nextOffset_params (s : State) : s.nextOffset.params = s.params := rfl
@[simp] theorem State.nextOffset_arg0 (s : State) : s.nextOffset.arg0 = s.arg0 := rfl
@[simp] theorem State.nextOffset_arg1 (s : State) : s.nextOffset.arg1 = s.arg1 := rfl
@[simp] theorem State.nextOffset_arg2 (s : State) : s.nextOffset.arg2 = s.arg2 := rfl
@[simp] theorem State.nextOffset_phase (s : State) : s.nextOffset.phase = s.phase := rfl
@[simp] theorem State.nextOffset_errcode (s : State) : s.nextOffset.errcode = s.errcode := rfl
@[simp] theorem State.nextOffset_retHash (s : State) : s.nextOffset.retHash = s.retHash := rfl
@[simp] theorem State.nextOffset_rcount (s : State) : s.nextOffset.rcount = s.rcount := rfl
@[simp] theorem State.nextOffset_capbits (s : State) : s.nextOffset.capbits = s.capbits := rfl
@[simp] theorem State.nextOffset_mask (s : State) : s.nextOffset.mask = s.mask := rfl
@[simp] theorem State.nextOffset_table (s : State) : s.nextOffset.table = s.table := rfl
@[simp] theorem State.nextOffset_bits (s : State) : s.nextOffset.bits = s.bits := rfl
@[simp] theorem State.nextOffset_txt (s : State) : s.nextOffset.txt = s.txt := rfl
@[simp] theorem State.nextOffset_res (s : State) : s.nextOffset.res = s.res := rfl
@[simp] theorem State.nextOffset_scH (s : State) : s.nextOffset.scH = s.scH := rfl
@[simp] theorem State.nextOffset_scS (s : State) : s.nextOffset.scS = s.scS + 1#64 := rfl
@[simp] theorem State.nextOffset_scLen (s : State) : s.nextOffset.scLen = s.scLen := rfl
@[simp] theorem State.nextOffset_scN (s : State) : s.nextOffset.scN = s.scN := rfl
@[simp] theorem State.nextOffset_g0 (s : State) : s.nextOffset.g0 = s.g0 := rfl
@[simp] theorem State.nextOffset_g1 (s : State) : s.nextOffset.g1 = s.g1 := rfl
@[simp] theorem State.nextOffset_resets (s : State) : s.nextOffset.resets = s.resets := rfl
@[simp] theorem State.nextOffset_pending (s : State) : s.nextOffset.pending = s.pending := rfl
@[simp] theorem State.nextOffset_response (s : State) : s.nextOffset.response = s.response := rfl

/-! ### `State.returnCount` -/

@[simp] theorem State.returnCount_params (s : State) : s.returnCount.params = s.params := rfl
@[simp] theorem State.returnCount_arg0 (s : State) : s.returnCount.arg0 = s.arg0 := rfl
@[simp] theorem State.returnCount_arg1 (s : State) : s.returnCount.arg1 = s.arg1 := rfl
@[simp] theorem State.returnCount_arg2 (s : State) : s.returnCount.arg2 = s.arg2 := rfl
@[simp] theorem State.returnCount_phase (s : State) : s.returnCount.phase = s.phase := rfl
@[simp] theorem State.returnCount_errcode (s : State) : s.returnCount.errcode = s.errcode := rfl
@[simp] theorem State.returnCount_retHash (s : State) : s.returnCount.retHash = s.retHash := rfl
@[simp] theorem State.returnCount_rcount (s : State) : s.returnCount.rcount = s.scN := rfl
@[simp] theorem State.returnCount_capbits (s : State) : s.returnCount.capbits = s.capbits := rfl
@[simp] theorem State.returnCount_mask (s : State) : s.returnCount.mask = s.mask := rfl
@[simp] theorem State.returnCount_table (s : State) : s.returnCount.table = s.table := rfl
@[simp] theorem State.returnCount_bits (s : State) : s.returnCount.bits = s.bits := rfl
@[simp] theorem State.returnCount_txt (s : State) : s.returnCount.txt = s.txt := rfl
@[simp] theorem State.returnCount_res (s : State) : s.returnCount.res = s.res := rfl
@[simp] theorem State.returnCount_scH (s : State) : s.returnCount.scH = s.scH := rfl
@[simp] theorem State.returnCount_scS (s : State) : s.returnCount.scS = s.scS := rfl
@[simp] theorem State.returnCount_scLen (s : State) : s.returnCount.scLen = s.scLen := rfl
@[simp] theorem State.returnCount_scN (s : State) : s.returnCount.scN = s.scN := rfl
@[simp] theorem State.returnCount_g0 (s : State) : s.returnCount.g0 = s.g0 := rfl
@[simp] theorem State.returnCount_g1 (s : State) : s.returnCount.g1 = s.g1 := rfl
@[simp] theorem State.returnCount_resets (s : State) : s.returnCount.resets = s.resets := rfl
@[simp] theorem State.returnCount_pending (s : State) : s.returnCount.pending = s.pending := rfl
@[simp] theorem State.returnCount_response (s : State) : s.returnCount.response = s.response := rfl

end Sys2Proof.Machine
end

