-- ==== Sys2Proof/Laws/Cells.lean ====
section
/-! SUPPORT. The laws of the sparse memories: read after write, and that every operation keeps the canonical
form. -/

namespace Sys2Proof.Machine

variable {α : Type}

@[simp] theorem Cells.read?_nil (a : Nat) : Cells.read? a ([] : Cells α) = none := rfl

theorem Cells.read?_cons (a k : Nat) (v : α) (m : Cells α) :
    Cells.read? a ((k, v) :: m) = if k = a then some v else Cells.read? a m := rfl

/-- Read after write, at the written index and at every other. -/
@[simp] theorem Cells.read?_write (a b : Nat) (v : α) (m : Cells α) :
    Cells.read? a (Cells.write b v m) = if a = b then some v else Cells.read? a m := by
  induction m with
  | nil => simp only [Cells.write, Cells.read?_cons, Cells.read?_nil, eq_comm]
  | cons e m ih =>
    obtain ⟨k, w⟩ := e
    simp only [Cells.write]
    split_ifs <;> simp only [Cells.read?_cons, ih] <;> split_ifs <;> first | rfl | omega

/-- A filter by index keeps what it keeps and forgets the rest. -/
theorem Cells.read?_filter (p : Nat → Bool) (a : Nat) (m : Cells α) :
    Cells.read? a (m.filter (fun e => p e.1)) = if p a then Cells.read? a m else none := by
  induction m with
  | nil => simp
  | cons e m ih =>
    obtain ⟨k, w⟩ := e
    rw [List.filter_cons]
    by_cases hk : k = a
    · subst hk
      cases hp : p k <;> simp [hp, ih, Cells.read?_cons]
    · cases hp : p k <;> simp [ih, Cells.read?_cons, hk]

@[simp] theorem Cells.read?_erase (a b : Nat) (m : Cells α) :
    Cells.read? a (Cells.erase b m) = if a = b then none else Cells.read? a m := by
  have h := Cells.read?_filter (fun k => decide (k ≠ b)) a m
  simp only [Cells.erase, h]
  by_cases hab : a = b <;> simp [hab]

/-- A listed index is in the list. -/
theorem Cells.mem_of_read? {a : Nat} {v : α} {m : Cells α} (h : Cells.read? a m = some v) : (a, v) ∈ m := by
  induction m with
  | nil => cases h
  | cons e m ih =>
    obtain ⟨k, w⟩ := e
    rw [Cells.read?_cons] at h
    split_ifs at h with hk
    · cases h; simp [hk]
    · exact List.mem_cons_of_mem _ (ih h)

/-- The entries of a written list: the new one and old ones. -/
theorem Cells.mem_write {a : Nat} {v : α} {m : Cells α} {e : Nat × α} (h : e ∈ Cells.write a v m) :
    e = (a, v) ∨ e ∈ m := by
  induction m with
  | nil => simpa [Cells.write] using h
  | cons x m ih =>
    obtain ⟨k, w⟩ := x
    simp only [Cells.write] at h
    split_ifs at h <;> simp only [List.mem_cons] at h ⊢ <;> tauto

/-- A write keeps the indexes strictly rising. -/
theorem Cells.rising_write {a : Nat} {v : α} {m : Cells α} (h : Cells.Rising m) :
    Cells.Rising (Cells.write a v m) := by
  induction m with
  | nil => simp [Cells.write]
  | cons x m ih =>
    obtain ⟨k, w⟩ := x
    obtain ⟨hk, hm⟩ := List.pairwise_cons.1 h
    simp only [Cells.write]
    split_ifs with h1 h2
    · refine List.pairwise_cons.2 ⟨fun e he => ?_, h⟩
      rcases List.mem_cons.1 he with rfl | he
      · exact h1
      · exact lt_trans h1 (hk e he)
    · subst h2
      exact List.pairwise_cons.2 ⟨hk, hm⟩
    · refine List.pairwise_cons.2 ⟨fun e he => ?_, ih hm⟩
      rcases Cells.mem_write he with rfl | he
      · show k < a
        omega
      · exact hk e he

/-- A filter keeps the indexes strictly rising. -/
theorem Cells.rising_filter {p : Nat × α → Bool} {m : Cells α} (h : Cells.Rising m) :
    Cells.Rising (m.filter p) :=
  h.sublist List.filter_sublist

/-- A written bit array, at the written index and at every other. -/
@[simp] theorem Cells.read?_writeBits (a w : Nat) (v : Word) (m : Cells Word) :
    (Cells.read? a (Cells.writeBits w v m)).getD 0#64
      = if a = w then v else (Cells.read? a m).getD 0#64 := by
  unfold Cells.writeBits
  split_ifs <;> simp_all

/-- Every operation on the bit array keeps its canonical form. -/
theorem Cells.wfBits_writeBits {w : Nat} {v : Word} {m : Cells Word} (h : Cells.wfBits m) :
    Cells.wfBits (Cells.writeBits w v m) := by
  unfold Cells.writeBits
  split_ifs with hv
  · exact ⟨Cells.rising_filter h.1, fun e he => h.2 e (List.mem_of_mem_filter he)⟩
  · refine ⟨Cells.rising_write h.1, fun e he => ?_⟩
    rcases Cells.mem_write he with rfl | he
    · exact hv
    · exact h.2 e he

theorem Cells.wfBits_filter {p : Nat × Word → Bool} {m : Cells Word} (h : Cells.wfBits m) :
    Cells.wfBits (m.filter p) :=
  ⟨Cells.rising_filter h.1, fun e he => h.2 e (List.mem_of_mem_filter he)⟩

theorem Cells.mem_writeBits {w : Nat} {v : Word} {m : Cells Word} {e : Nat × Word}
    (h : e ∈ Cells.writeBits w v m) : e = (w, v) ∨ e ∈ m := by
  unfold Cells.writeBits at h
  split_ifs at h
  · exact .inr (List.mem_of_mem_filter h)
  · exact Cells.mem_write h

/-- The text buffer's canonical form is kept by a store. -/
theorem Memory.wf_write {a : Nat} {b : Byte} {m : Memory} (h : Memory.wf m) : Memory.wf (Cells.write a b m) :=
  Cells.rising_write h

/-- A store to the text buffer, the one operation that writes it, keeps its canonical form. -/
theorem State.storeText_wf {a : Nat} {b : Byte} {s : State} (h : Memory.wf s.txt) :
    Memory.wf (s.storeText a b).txt :=
  Memory.wf_write h

/-- The memories right after any reset are in canonical form. -/
theorem State.afterReset_wf (params : Params) (resets : Nat) (pending : List Event) :
    Memory.wf (State.afterReset params resets pending).txt
      ∧ Cells.wfBits (State.afterReset params resets pending).bits
      ∧ Cells.Rising (State.afterReset params resets pending).res := by
  simp [State.afterReset, Memory.wf, Cells.wfBits]

theorem State.reset_wf : Memory.wf State.reset.txt :=
  (State.afterReset_wf _ _ _).1

/-- In canonical form, lists that read alike are equal: equal bit arrays are equal data. -/
theorem Cells.eq_of_read? {m n : Cells α} (hm : Cells.Rising m) (hn : Cells.Rising n)
    (h : ∀ a, Cells.read? a m = Cells.read? a n) : m = n := by
  have below : ∀ {l : Cells α} {k : Nat}, (∀ e ∈ l, k < e.1) → Cells.read? k l = none := by
    intro l k hl
    by_contra hne
    obtain ⟨v, hv⟩ := Option.ne_none_iff_exists'.1 hne
    exact absurd (hl _ (Cells.mem_of_read? hv)) (lt_irrefl k)
  induction m generalizing n with
  | nil =>
    cases n with
    | nil => rfl
    | cons e n => have := h e.1; simp [Cells.read?] at this
  | cons e m ih =>
    obtain ⟨k, v⟩ := e
    obtain ⟨hk, hm'⟩ := List.pairwise_cons.1 hm
    cases n with
    | nil => have := h k; simp [Cells.read?] at this
    | cons f n =>
      obtain ⟨j, w⟩ := f
      obtain ⟨hj, hn'⟩ := List.pairwise_cons.1 hn
      have hkj : k = j := by
        by_contra hne
        rcases lt_or_gt_of_ne hne with hlt | hlt
        · have h1 := h k
          rw [Cells.read?_cons, if_pos rfl, Cells.read?_cons, if_neg (Ne.symm hne),
            below (fun e he => lt_trans hlt (hj e he))] at h1
          cases h1
        · have h1 := h j
          rw [Cells.read?_cons, if_neg hne, Cells.read?_cons, if_pos rfl,
            below (fun e he => lt_trans hlt (hk e he))] at h1
          cases h1
      subst hkj
      have hvw : v = w := by
        have h1 := h k
        simpa [Cells.read?_cons] using h1
      subst hvw
      congr 1
      refine ih hm' hn' fun a => ?_
      by_cases ha : a = k
      · subst ha
        rw [below hk, below hj]
      · have h1 := h a
        rwa [Cells.read?_cons, if_neg (Ne.symm ha), Cells.read?_cons, if_neg (Ne.symm ha)] at h1

end Sys2Proof.Machine
end

