-- ==== Sys2Proof/Laws/Bits.lean ====
section
/-! SUPPORT. One spec lemma per operation on the text buffer, the bit array and the result memory, and the
arithmetic of bit slots. -/

namespace Sys2Proof.Machine

/-! ### Text and records -/

theorem State.textByte_storeText (s : State) (a b : Nat) (v : Byte) :
    (s.storeText b v).textByte a = if a = b then v else s.textByte a := by
  unfold State.textByte
  simp only [State.storeText_txt, State.storeText_resets, Cells.read?_write]
  split_ifs <;> rfl

theorem State.record_storeRecord (s : State) (i j : Nat) (r : MatchRecord) :
    (s.storeRecord j r).record i = if i = j then r else s.record i := by
  unfold State.record
  simp only [State.storeRecord_res, State.storeRecord_resets, Cells.read?_write]
  split_ifs <;> rfl

/-! ### Words of the bit array -/

theorem State.bitsWord_storeBits (s : State) (w x : Nat) (v : Word) :
    (s.storeBits w v).bitsWord x = if x = w then v else s.bitsWord x := by
  unfold State.bitsWord
  simp only [State.storeBits_bits, Cells.read?_writeBits]

theorem State.bitsWord_zeroBits (s : State) (n x : Nat) :
    (s.zeroBits n).bitsWord x = if x < n then 0#64 else s.bitsWord x := by
  have h := Cells.read?_filter (fun k => decide (n ≤ k)) x s.bits
  unfold State.bitsWord
  rw [State.zeroBits_bits, h]
  by_cases hx : x < n
  · simp [hx, not_le.2 hx]
  · simp [hx, not_lt.1 hx]

/-! ### Slots -/

theorem slotWord_eq (p : Word) : slotWord p = p.toNat / 64 := by
  unfold slotWord
  simp [BitVec.toNat_ushiftRight, Nat.shiftRight_eq_div_pow]

theorem slotBit_eq (p : Word) : slotBit p = p.toNat % 64 := by
  unfold slotBit
  rw [BitVec.toNat_and]
  exact Nat.and_two_pow_sub_one_eq_mod p.toNat 6

theorem slotBit_lt (p : Word) : slotBit p < 64 := by
  rw [slotBit_eq]
  exact Nat.mod_lt _ (by decide)

/-- Slots and (word, bit) pairs correspond one to one (spec/10_state.md R43). -/
theorem slot_inj {p q : Word} (hw : slotWord p = slotWord q) (hb : slotBit p = slotBit q) : p = q := by
  rw [slotWord_eq, slotWord_eq] at hw
  rw [slotBit_eq, slotBit_eq] at hb
  apply BitVec.eq_of_toNat_eq
  omega

/-! ### SetBit and TestBit -/

theorem State.testBit_eq (s : State) (p : Word) :
    s.testBit p = (s.bitsWord (slotWord p)).getLsbD (slotBit p) := by
  unfold State.testBit
  generalize s.bitsWord (slotWord p) = v
  have h : (v >>> slotBit p &&& 1#64) = if v.getLsbD (slotBit p) then 1#64 else 0#64 := by
    ext i hi
    simp only [BitVec.getElem_and, BitVec.getElem_ushiftRight, BitVec.getElem_one]
    by_cases hi0 : i = 0
    · subst hi0
      cases v.getLsbD (slotBit p) <;> simp [*]
    · cases v.getLsbD (slotBit p) <;> simp [hi0]
  rw [h]
  cases v.getLsbD (slotBit p) <;> decide

theorem State.bitsWord_setBit (s : State) (p : Word) (w : Nat) :
    (s.setBit p).bitsWord w
      = if w = slotWord p then s.bitsWord w ||| (1#64 <<< slotBit p) else s.bitsWord w := by
  unfold State.setBit
  rw [State.bitsWord_storeBits]
  split_ifs with h
  · rw [h]
  · rfl

/-- `SetBit(p)` sets slot `p` and changes no other slot. -/
theorem State.testBit_setBit (s : State) (p q : Word) :
    (s.setBit p).testBit q = (s.testBit q || decide (q = p)) := by
  rw [State.testBit_eq, State.testBit_eq, State.bitsWord_setBit]
  by_cases hw : slotWord q = slotWord p
  · rw [if_pos hw, BitVec.getLsbD_or]
    congr 1
    have h1 : (1#64 <<< slotBit p).getLsbD (slotBit q) = decide (slotBit q = slotBit p) := by
      have hq := slotBit_lt q
      rw [BitVec.getLsbD_shiftLeft, BitVec.getLsbD_one]
      by_cases hb : slotBit q = slotBit p
      · simp [hb, slotBit_lt p]
      · by_cases hlt : slotBit q < slotBit p
        · simp [hlt, hb]
        · have : slotBit q - slotBit p ≠ 0 := by omega
          simp [hb, this]
    rw [h1]
    by_cases hb : slotBit q = slotBit p
    · simp [slot_inj hw hb]
    · have : q ≠ p := fun h => hb (by rw [h])
      simp [hb, this]
  · have : q ≠ p := fun h => hw (by rw [h])
    simp [hw, this]

/-- TestBit reads the bit array only. -/
theorem State.testBit_congr {s t : State} (h : t.bits = s.bits) (p : Word) : t.testBit p = s.testBit p := by
  unfold State.testBit State.bitsWord
  rw [h]

/-- A text byte depends on the text buffer and the count of resets only. -/
theorem State.textByte_congr {s t : State} (h : t.txt = s.txt) (hr : t.resets = s.resets) (a : Nat) :
    t.textByte a = s.textByte a := by
  unfold State.textByte
  rw [h, hr]

/-- Bit arrays in canonical form that test alike at every slot and hold no word beyond the slots are equal. -/
theorem bits_eq_of_testBit {s t : State} (hs : Cells.wfBits s.bits) (ht : Cells.wfBits t.bits)
    (hs' : ∀ e ∈ s.bits, e.1 < 2 ^ 58) (ht' : ∀ e ∈ t.bits, e.1 < 2 ^ 58)
    (h : ∀ p, s.testBit p = t.testBit p) : s.bits = t.bits := by
  have word : ∀ w, s.bitsWord w = t.bitsWord w := by
    intro w
    by_cases hw : w < 2 ^ 58
    · apply BitVec.eq_of_getLsbD_eq
      intro i hi
      have hp := h (BitVec.ofNat 64 (w * 64 + i))
      rw [State.testBit_eq, State.testBit_eq, slotWord_eq, slotBit_eq, BitVec.toNat_ofNat,
        Nat.mod_eq_of_lt (by omega), show (w * 64 + i) / 64 = w by omega,
        show (w * 64 + i) % 64 = i by omega] at hp
      exact hp
    · have none : ∀ {u : State}, (∀ e ∈ u.bits, e.1 < 2 ^ 58) → Cells.read? w u.bits = none := by
        intro u hu
        by_contra hne
        obtain ⟨v, hv⟩ := Option.ne_none_iff_exists'.1 hne
        exact hw (hu _ (Cells.mem_of_read? hv))
      unfold State.bitsWord
      rw [none hs', none ht']
  refine Cells.eq_of_read? hs.1 ht.1 fun a => ?_
  have ha := word a
  unfold State.bitsWord at ha
  cases hsa : Cells.read? a s.bits with
  | none =>
    cases hta : Cells.read? a t.bits with
    | none => rfl
    | some v =>
      rw [hsa, hta] at ha
      exact absurd ha.symm (ht.2 _ (Cells.mem_of_read? hta))
  | some u =>
    cases hta : Cells.read? a t.bits with
    | none =>
      rw [hsa, hta] at ha
      exact absurd ha (hs.2 _ (Cells.mem_of_read? hsa))
    | some v =>
      rw [hsa, hta] at ha
      exact congrArg some ha

end Sys2Proof.Machine
end

