-- ==== Sys2Proof/Laws/Decode.lean ====
section
/-! SUPPORT. The command word: which words are commands, and that encoding and decoding a command agree. -/

namespace Sys2Proof

theorem decodeCommand_encodeCommand (c : Command) : decodeCommand (encodeCommand c) = some c := by
  cases c <;> decide

/-- The decoder by the value of the word. -/
theorem decodeCommand_eq (cw : Word) :
    decodeCommand cw =
      match cw.toNat with
      | 1 => some .alloc
      | 2 => some .init
      | 3 => some .insert
      | 4 => some .search
      | 5 => some .release
      | _ => none := by
  have hlow : (cw.extractLsb' 0 8).toNat = cw.toNat % 256 := by
    simp [BitVec.extractLsb'_toNat]
  have hhigh : (cw.extractLsb' 8 56).toNat = cw.toNat / 256 := by
    have := cw.isLt
    simp [BitVec.extractLsb'_toNat, Nat.shiftRight_eq_div_pow]
    omega
  unfold decodeCommand
  by_cases h : cw.extractLsb' 8 56 = 0#56
  · have h0 : cw.toNat / 256 = 0 := by rw [← hhigh, h]; rfl
    have hcw : cw.toNat % 256 = cw.toNat := by omega
    rw [if_neg (not_not.2 h), hlow, hcw]
    try rfl
  · have h0 : 256 ≤ cw.toNat := by
      by_contra hlt
      exact h (BitVec.eq_of_toNat_eq (by rw [hhigh]; simp; omega))
    rw [if_pos h]
    split <;> first | omega | rfl

theorem decodeCommand_eq_some {cw : Word} {c : Command} (h : decodeCommand cw = some c) :
    cw = encodeCommand c := by
  rw [decodeCommand_eq] at h
  apply BitVec.eq_of_toNat_eq
  split at h <;> first | (cases h; assumption) | cases h

/-- No command: value 0 or above 5. -/
theorem decodeCommand_eq_none_iff (cw : Word) :
    decodeCommand cw = none ↔ cw.toNat = 0 ∨ 6 ≤ cw.toNat := by
  rw [decodeCommand_eq]
  split <;> simp only [reduceCtorEq, false_iff, true_iff, not_or, not_le] <;>
    (try simp only [imp_false] at *) <;> omega

/-- Everything the decoder answers for a register access. -/
theorem decodeReg_cases (we : Bool) (a v : Word) :
    (we = false ∧ decodeReg we a v = .rdreg a)
    ∨ (we = true ∧ a = 0#64 ∧ ∃ c, v = encodeCommand c ∧ decodeReg we a v = c.instr)
    ∨ (we = true ∧ a = 0#64 ∧ decodeCommand v = none ∧ decodeReg we a v = .wrreg a v)
    ∨ (we = true ∧ a ≠ 0#64 ∧ decodeReg we a v = .wrreg a v) := by
  unfold decodeReg
  cases we with
  | false => simp
  | true =>
    by_cases ha : a = 0#64
    · cases hc : decodeCommand v with
      | none => simp [ha]
      | some c => refine .inr (.inl ⟨rfl, ha, c, decodeCommand_eq_some hc, by simp [ha]⟩)
    · simp [ha]

/-- Everything the decoder answers, by space and direction. -/
theorem decode_cases (t : Transaction) :
    (t.space = 0#3 ∧ decode t = .ok (decodeReg t.we t.addr t.wdata))
    ∨ (t.space = 1#3 ∧ t.we = true ∧ decode t = .ok (.wrtxt t.addr t.wdata))
    ∨ (t.space = 1#3 ∧ t.we = false ∧ decode t = .ok (.rdtxt t.addr))
    ∨ (t.space = 2#3 ∧ t.we = false ∧ decode t = .ok (.rdres t.addr))
    ∨ (t.space = 3#3 ∧ t.we = false ∧ decode t = .ok (.rdbits t.addr))
    ∨ (t.space = 4#3 ∧ t.we = false ∧ decode t = .ok (.rdtab t.addr))
    ∨ ((t.space = 2#3 ∨ t.space = 3#3 ∨ t.space = 4#3) ∧ t.we = true ∧ decode t = .rejected .readOnlySpace)
    ∨ (5 ≤ t.space.toNat ∧ decode t = .rejected .reservedSpace) := by
  obtain ⟨we, sp, a, v⟩ := t
  have : sp = 0#3 ∨ sp = 1#3 ∨ sp = 2#3 ∨ sp = 3#3 ∨ sp = 4#3 ∨ sp = 5#3 ∨ sp = 6#3 ∨ sp = 7#3 := by
    revert sp; decide
  rcases this with rfl | rfl | rfl | rfl | rfl | rfl | rfl | rfl <;> cases we <;> simp [decode]

end Sys2Proof
end

