-- ==== Sys2Proof/Laws/Generator.lean ====
section
/-! SUPPORT. What the generator's loops compute. -/

namespace Sys2Proof.Machine

/-- Discarded steps are iteration. -/
theorem genSkip_eq_iterate (xs : Word → Word → Word × Word) (n : Nat) (g : GenState) :
    genSkip xs n g = (genNext xs)^[n] g := by
  induction n with
  | zero => rfl
  | succ n ih => rw [genSkip, ih, Function.iterate_succ_apply']

theorem genSkip_genSkip (xs : Word → Word → Word × Word) (m n : Nat) (g : GenState) :
    genSkip xs m (genSkip xs n g) = genSkip xs (n + m) g := by
  induction m with
  | zero => rfl
  | succ m ih => rw [genSkip, ih, ← Nat.add_assoc, genSkip]

/-- The fill loop ends in the state after its steps. -/
theorem genFill_state (xs : Word → Word → Word × Word) (n : Nat) (g : GenState) :
    (genFill xs n g).2 = genSkip xs n g := by
  induction n with
  | zero => rfl
  | succ n ih => simp only [genFill, genSkip, ih]

/-- Entry `i` of the fill is output `i + 1`. -/
theorem genFill_entry (xs : Word → Word → Word × Word) (n : Nat) (g : GenState) (i : Nat) (h : i < n) :
    (genFill xs n g).1[i] = genOutput (genSkip xs (i + 1) g) := by
  induction n with
  | zero => omega
  | succ n ih =>
    simp only [genFill]
    rw [Vector.getElem_push]
    split_ifs with hi
    · exact ih hi
    · have : i = n := by omega
      subst this
      rw [genFill_state, genSkip]

/-- `T[b]` is the `(65 + b)`-th output, counting from 1 (spec/40_hash_table_generator.md R134). -/
theorem genTable_entry (xs : Word → Word → Word × Word) (seed : Word) (i : Nat) (h : i < 256) :
    (genTable xs seed).1[i] = genOutput ((genNext xs)^[65 + i] (seed, genConst)) := by
  unfold genTable genSeeded burnIn
  rw [genFill_entry xs 256 _ i h, genSkip_genSkip, genSkip_eq_iterate]
  congr 2
  omega

/-- The generator makes 320 steps (R134). -/
theorem genTable_state (xs : Word → Word → Word × Word) (seed : Word) :
    (genTable xs seed).2 = (genNext xs)^[320] (seed, genConst) := by
  unfold genTable genSeeded burnIn
  rw [genFill_state, genSkip_genSkip, genSkip_eq_iterate]

theorem tableEntry_eq (t : Vector Word 256) (b : Byte) : tableEntry t b = t[b.toNat]'b.isLt := rfl

end Sys2Proof.Machine
end

