-- ==== Sys2Proof/Laws/Insert.lean ====
section
/-! SUPPORT. What INSERT's loop does: its frame, and its effect on the hash and on the bit array. -/

namespace Sys2Proof.Machine

/-! ### Byte sequences -/

@[simp] theorem State.textBytes_length (s : State) (base len : Nat) : (s.textBytes base len).length = len := by
  simp [State.textBytes]

@[simp] theorem State.textBytes_zero (s : State) (base : Nat) : s.textBytes base 0 = [] := rfl

/-- The first byte and the rest. -/
theorem State.textBytes_succ (s : State) (base n : Nat) :
    s.textBytes base (n + 1) = s.textByte base :: s.textBytes (base + 1) n := by
  unfold State.textBytes
  rw [List.range_succ_eq_map]
  simp [Function.comp_def, Nat.add_assoc, Nat.add_comm 1]

theorem State.textBytes_congr {s t : State} (h : t.txt = s.txt) (hr : t.resets = s.resets) (base len : Nat) :
    t.textBytes base len = s.textBytes base len := by
  unfold State.textBytes
  simp only [State.textByte_congr h hr]

@[simp] theorem wordHash_nil (t : Vector Word 256) : wordHash t [] = 0#64 := rfl

/-- `H(w b) = Roll(H(w), b)` (spec/42_insert.md R161). -/
theorem wordHash_append_singleton (t : Vector Word 256) (w : List Byte) (b : Byte) :
    wordHash t (w ++ [b]) = roll t (wordHash t w) b := by
  simp [wordHash]

/-! ### One byte -/

theorem insertByte_eq (base : Nat) (s : State) :
    insertByte base s =
      { s with
        scH := (insertByte base s).scH
        scLen := (insertByte base s).scLen
        bits := (insertByte base s).bits } := rfl

@[simp] theorem insertByte_scH (base : Nat) (s : State) :
    (insertByte base s).scH = roll s.table s.scH (s.textByte (base + s.scLen.toNat)) := rfl

@[simp] theorem insertByte_scLen (base : Nat) (s : State) : (insertByte base s).scLen = s.scLen + 1#64 := rfl

/-- One turn sets the prefix slot of the new hash and no other. -/
theorem insertByte_testBit (base : Nat) (s : State) (p : Word) :
    (insertByte base s).testBit p = (s.testBit p || decide (p = prefixSlot s.mask (insertByte base s).scH)) :=
  State.testBit_setBit _ _ _

/-! ### The loop -/

/-- INSERT's loop writes SC_H, SC_LEN and the bit array, and nothing else. -/
theorem insertLoop_eq (base n : Nat) (s : State) :
    insertLoop base n s =
      { s with
        scH := (insertLoop base n s).scH
        scLen := (insertLoop base n s).scLen
        bits := (insertLoop base n s).bits } := by
  induction n generalizing s with
  | zero => rfl
  | succ n ih =>
    simp only [insertLoop]
    rw [ih]
    rfl

@[simp] theorem insertLoop_params (base n : Nat) (s : State) :
    (insertLoop base n s).params = s.params := by rw [insertLoop_eq]
@[simp] theorem insertLoop_arg0 (base n : Nat) (s : State) :
    (insertLoop base n s).arg0 = s.arg0 := by rw [insertLoop_eq]
@[simp] theorem insertLoop_arg1 (base n : Nat) (s : State) :
    (insertLoop base n s).arg1 = s.arg1 := by rw [insertLoop_eq]
@[simp] theorem insertLoop_arg2 (base n : Nat) (s : State) :
    (insertLoop base n s).arg2 = s.arg2 := by rw [insertLoop_eq]
@[simp] theorem insertLoop_phase (base n : Nat) (s : State) :
    (insertLoop base n s).phase = s.phase := by rw [insertLoop_eq]
@[simp] theorem insertLoop_errcode (base n : Nat) (s : State) :
    (insertLoop base n s).errcode = s.errcode := by rw [insertLoop_eq]
@[simp] theorem insertLoop_retHash (base n : Nat) (s : State) :
    (insertLoop base n s).retHash = s.retHash := by rw [insertLoop_eq]
@[simp] theorem insertLoop_rcount (base n : Nat) (s : State) :
    (insertLoop base n s).rcount = s.rcount := by rw [insertLoop_eq]
@[simp] theorem insertLoop_capbits (base n : Nat) (s : State) :
    (insertLoop base n s).capbits = s.capbits := by rw [insertLoop_eq]
@[simp] theorem insertLoop_mask (base n : Nat) (s : State) :
    (insertLoop base n s).mask = s.mask := by rw [insertLoop_eq]
@[simp] theorem insertLoop_table (base n : Nat) (s : State) :
    (insertLoop base n s).table = s.table := by rw [insertLoop_eq]
@[simp] theorem insertLoop_txt (base n : Nat) (s : State) :
    (insertLoop base n s).txt = s.txt := by rw [insertLoop_eq]
@[simp] theorem insertLoop_res (base n : Nat) (s : State) :
    (insertLoop base n s).res = s.res := by rw [insertLoop_eq]
@[simp] theorem insertLoop_scS (base n : Nat) (s : State) :
    (insertLoop base n s).scS = s.scS := by rw [insertLoop_eq]
@[simp] theorem insertLoop_scN (base n : Nat) (s : State) :
    (insertLoop base n s).scN = s.scN := by rw [insertLoop_eq]
@[simp] theorem insertLoop_g0 (base n : Nat) (s : State) :
    (insertLoop base n s).g0 = s.g0 := by rw [insertLoop_eq]
@[simp] theorem insertLoop_g1 (base n : Nat) (s : State) :
    (insertLoop base n s).g1 = s.g1 := by rw [insertLoop_eq]
@[simp] theorem insertLoop_resets (base n : Nat) (s : State) :
    (insertLoop base n s).resets = s.resets := by rw [insertLoop_eq]
@[simp] theorem insertLoop_pending (base n : Nat) (s : State) :
    (insertLoop base n s).pending = s.pending := by rw [insertLoop_eq]
@[simp] theorem insertLoop_response (base n : Nat) (s : State) :
    (insertLoop base n s).response = s.response := by rw [insertLoop_eq]

/-- The hash and the length after `n` bytes. -/
theorem insertLoop_hash (base n : Nat) (s : State) (hn : s.scLen.toNat + n < 2 ^ 64) :
    (insertLoop base n s).scH = (s.textBytes (base + s.scLen.toNat) n).foldl (roll s.table) s.scH
      ∧ (insertLoop base n s).scLen = s.scLen + BitVec.ofNat 64 n := by
  induction n generalizing s with
  | zero => simp [insertLoop]
  | succ n ih =>
    have hlen : (insertByte base s).scLen.toNat = s.scLen.toNat + 1 := by
      rw [insertByte_scLen, BitVec.toNat_add]
      exact Nat.mod_eq_of_lt (by simp; omega)
    obtain ⟨h1, h2⟩ := ih (insertByte base s) (by rw [hlen]; omega)
    refine ⟨?_, ?_⟩
    · rw [State.textBytes_succ, List.foldl_cons]
      simp only [insertLoop]
      rw [h1, hlen, State.textBytes_congr (s := s) rfl rfl]
      rfl
    · simp only [insertLoop]
      rw [h2, insertByte_scLen, BitVec.add_assoc]
      congr 1
      apply BitVec.eq_of_toNat_eq
      simp [Nat.add_comm]

/-- The slots the loop sets: the prefix slot after each byte. -/
theorem insertLoop_testBit (base n : Nat) (s : State) (hn : s.scLen.toNat + n < 2 ^ 64) (p : Word) :
    (insertLoop base n s).testBit p = (s.testBit p || decide (p ∈ (List.range n).map (fun k =>
      prefixSlot s.mask
        (((s.textBytes (base + s.scLen.toNat) n).take (k + 1)).foldl (roll s.table) s.scH)))) := by
  induction n generalizing s with
  | zero => simp [insertLoop]
  | succ n ih =>
    have hlen : (insertByte base s).scLen.toNat = s.scLen.toNat + 1 := by
      rw [insertByte_scLen, BitVec.toNat_add]
      exact Nat.mod_eq_of_lt (by simp; omega)
    have h := ih (insertByte base s) (by rw [hlen]; omega)
    simp only [insertLoop]
    rw [h, insertByte_testBit, hlen, State.textBytes_congr (s := s) rfl rfl, List.range_succ_eq_map,
      State.textBytes_succ, Bool.or_assoc]
    congr 1
    rw [← Bool.decide_or]
    simp only [List.map_cons, List.map_map, List.mem_cons, List.take_succ_cons, List.take_zero, List.foldl_cons,
      List.foldl_nil, Function.comp_def, Nat.add_assoc, insertByte_scH]
    rfl

/-- The words a loop with a legal mask may write lie inside the index, and the canonical form is kept. -/
theorem insertLoop_bits (base n : Nat) (s : State) (P : Nat → Prop)
    (hP : ∀ h, P (slotWord (prefixSlot s.mask h))) :
    (∀ w, ¬ P w → (insertLoop base n s).bitsWord w = s.bitsWord w)
      ∧ (Cells.wfBits s.bits → Cells.wfBits (insertLoop base n s).bits)
      ∧ ((∀ e ∈ s.bits, P e.1) → ∀ e ∈ (insertLoop base n s).bits, P e.1) := by
  induction n generalizing s with
  | zero => exact ⟨fun _ _ => rfl, id, id⟩
  | succ n ih =>
    obtain ⟨h1, h2, h3⟩ := ih (insertByte base s) hP
    simp only [insertLoop]
    refine ⟨fun w hw => ?_, fun hs => h2 (Cells.wfBits_writeBits hs), fun hs => h3 fun e he => ?_⟩
    · rw [h1 w hw]
      refine (State.bitsWord_setBit _ _ _).trans (if_neg fun he => hw ?_)
      rw [he]
      exact hP _
    · rcases Cells.mem_writeBits he with rfl | he
      · exact hP _
      · exact hs e he

/-! ### INSERT after its checks -/

theorem State.insertWord_eq (base len : Nat) (s : State) :
    s.insertWord base len =
      { s with
        bits := (s.insertWord base len).bits
        retHash := (s.insertWord base len).retHash
        scH := (s.insertWord base len).scH
        scS := 0#64
        scLen := (s.insertWord base len).scLen } := by
  have h := insertLoop_eq base len s.beginWord
  unfold State.insertWord
  rw [h]
  rfl

@[simp] theorem State.insertWord_params (base len : Nat) (s : State) :
    (s.insertWord base len).params = s.params := by rw [State.insertWord_eq]
@[simp] theorem State.insertWord_arg0 (base len : Nat) (s : State) :
    (s.insertWord base len).arg0 = s.arg0 := by rw [State.insertWord_eq]
@[simp] theorem State.insertWord_arg1 (base len : Nat) (s : State) :
    (s.insertWord base len).arg1 = s.arg1 := by rw [State.insertWord_eq]
@[simp] theorem State.insertWord_arg2 (base len : Nat) (s : State) :
    (s.insertWord base len).arg2 = s.arg2 := by rw [State.insertWord_eq]
@[simp] theorem State.insertWord_phase (base len : Nat) (s : State) :
    (s.insertWord base len).phase = s.phase := by rw [State.insertWord_eq]
@[simp] theorem State.insertWord_errcode (base len : Nat) (s : State) :
    (s.insertWord base len).errcode = s.errcode := by rw [State.insertWord_eq]
@[simp] theorem State.insertWord_rcount (base len : Nat) (s : State) :
    (s.insertWord base len).rcount = s.rcount := by rw [State.insertWord_eq]
@[simp] theorem State.insertWord_capbits (base len : Nat) (s : State) :
    (s.insertWord base len).capbits = s.capbits := by rw [State.insertWord_eq]
@[simp] theorem State.insertWord_mask (base len : Nat) (s : State) :
    (s.insertWord base len).mask = s.mask := by rw [State.insertWord_eq]
@[simp] theorem State.insertWord_table (base len : Nat) (s : State) :
    (s.insertWord base len).table = s.table := by rw [State.insertWord_eq]
@[simp] theorem State.insertWord_txt (base len : Nat) (s : State) :
    (s.insertWord base len).txt = s.txt := by rw [State.insertWord_eq]
@[simp] theorem State.insertWord_res (base len : Nat) (s : State) :
    (s.insertWord base len).res = s.res := by rw [State.insertWord_eq]
@[simp] theorem State.insertWord_scN (base len : Nat) (s : State) :
    (s.insertWord base len).scN = s.scN := by rw [State.insertWord_eq]
@[simp] theorem State.insertWord_g0 (base len : Nat) (s : State) :
    (s.insertWord base len).g0 = s.g0 := by rw [State.insertWord_eq]
@[simp] theorem State.insertWord_g1 (base len : Nat) (s : State) :
    (s.insertWord base len).g1 = s.g1 := by rw [State.insertWord_eq]
@[simp] theorem State.insertWord_resets (base len : Nat) (s : State) :
    (s.insertWord base len).resets = s.resets := by rw [State.insertWord_eq]
@[simp] theorem State.insertWord_pending (base len : Nat) (s : State) :
    (s.insertWord base len).pending = s.pending := by rw [State.insertWord_eq]
@[simp] theorem State.insertWord_response (base len : Nat) (s : State) :
    (s.insertWord base len).response = s.response := by rw [State.insertWord_eq]

/-- SC_H and RET_HASH are `H(w)`, SC_LEN is the length. -/
theorem State.insertWord_hash (base len : Nat) (s : State) (hlen : len < 2 ^ 64) :
    (s.insertWord base len).retHash = wordHash s.table (s.textBytes base len)
      ∧ (s.insertWord base len).scH = wordHash s.table (s.textBytes base len)
      ∧ (s.insertWord base len).scLen = BitVec.ofNat 64 len := by
  obtain ⟨h1, h2⟩ := insertLoop_hash base len s.beginWord (by simpa using hlen)
  simp only [State.beginWord_scLen, State.beginWord_scH, State.beginWord_table, BitVec.toNat_ofNat, Nat.zero_mod,
    Nat.add_zero, BitVec.zero_add, State.textBytes_congr (State.beginWord_txt s) (State.beginWord_resets s)] at h1 h2
  exact ⟨h1, h1, h2⟩

/-- INSERT sets the slots of `S(w)` and changes no other (spec/42_insert.md R171). -/
theorem State.insertWord_testBit (base len : Nat) (s : State) (hlen : len < 2 ^ 64) (p : Word) :
    (s.insertWord base len).testBit p
      = (s.testBit p || decide (p ∈ insertSlots s.table s.mask (s.textBytes base len))) := by
  have h := insertLoop_testBit base len s.beginWord (by simpa using hlen) p
  have hh : (insertLoop base len s.beginWord).scH = wordHash s.table (s.textBytes base len) :=
    (State.insertWord_hash base len s hlen).2.1
  have hs : (s.insertWord base len).testBit p
      = ((insertLoop base len s.beginWord).testBit p
        || decide (p = terminatorSlot s.mask (wordHash s.table (s.textBytes base len)))) := by
    rw [← hh, ← State.beginWord_mask s, ← insertLoop_mask base len s.beginWord]
    exact State.testBit_setBit _ _ _
  simp only [State.beginWord_scLen, State.beginWord_scH, State.beginWord_table, State.beginWord_mask,
    BitVec.toNat_ofNat, Nat.zero_mod, Nat.add_zero,
    State.textBytes_congr (State.beginWord_txt s) (State.beginWord_resets s)] at h
  rw [hs, h, Bool.or_assoc, ← Bool.decide_or]
  unfold insertSlots wordHash
  simp only [List.mem_append, List.mem_singleton, State.textBytes_length]
  rfl

/-- Where a mask keeps every slot inside `P`, INSERT writes no word outside it and keeps the canonical form. -/
theorem State.insertWord_bits (base len : Nat) (s : State) (P : Nat → Prop)
    (hP : ∀ h, P (slotWord (h &&& s.mask))) :
    (∀ w, ¬ P w → (s.insertWord base len).bitsWord w = s.bitsWord w)
      ∧ (Cells.wfBits s.bits → Cells.wfBits (s.insertWord base len).bits)
      ∧ ((∀ e ∈ s.bits, P e.1) → ∀ e ∈ (s.insertWord base len).bits, P e.1) := by
  obtain ⟨h1, h2, h3⟩ := insertLoop_bits base len s.beginWord P (fun h => hP h)
  have ht : P (slotWord (terminatorSlot (insertLoop base len s.beginWord).mask
      (insertLoop base len s.beginWord).scH)) := by
    rw [insertLoop_mask]
    exact hP _
  refine ⟨fun w hw => ?_, fun hs => Cells.wfBits_writeBits (h2 hs), fun hs e he => ?_⟩
  · refine ((State.bitsWord_setBit _ _ _).trans (if_neg fun he => hw ?_)).trans (h1 w hw)
    rw [he]
    exact ht
  · rcases Cells.mem_writeBits he with rfl | he
    · exact ht
    · exact h3 hs e he

end Sys2Proof.Machine
end

