-- ==== Sys2Proof/Laws/Search.lean ====
section
/-! SUPPORT. What SEARCH's loops do: their frames, and the records they emit. -/

namespace Sys2Proof.Machine

/-! ### Frames -/

/-- The inner loop writes SC_H, SC_LEN, SC_N and the result memory, and nothing else. -/
theorem scanFrom_eq (base : Nat) (max : Word) (n : Nat) (s : State) :
    (scanFrom base max n s).1 =
      { s with
        scH := (scanFrom base max n s).1.scH
        scLen := (scanFrom base max n s).1.scLen
        scN := (scanFrom base max n s).1.scN
        res := (scanFrom base max n s).1.res } := by
  induction n generalizing s with
  | zero => rfl
  | succ n ih =>
    simp only [scanFrom]
    split_ifs
    · rfl
    · rfl
    · rw [ih]; rfl
    · rw [ih]; rfl

@[simp] theorem scanFrom_params (base : Nat) (max : Word) (n : Nat) (s : State) :
    (scanFrom base max n s).1.params = s.params := by rw [scanFrom_eq]
@[simp] theorem scanFrom_arg0 (base : Nat) (max : Word) (n : Nat) (s : State) :
    (scanFrom base max n s).1.arg0 = s.arg0 := by rw [scanFrom_eq]
@[simp] theorem scanFrom_arg1 (base : Nat) (max : Word) (n : Nat) (s : State) :
    (scanFrom base max n s).1.arg1 = s.arg1 := by rw [scanFrom_eq]
@[simp] theorem scanFrom_arg2 (base : Nat) (max : Word) (n : Nat) (s : State) :
    (scanFrom base max n s).1.arg2 = s.arg2 := by rw [scanFrom_eq]
@[simp] theorem scanFrom_phase (base : Nat) (max : Word) (n : Nat) (s : State) :
    (scanFrom base max n s).1.phase = s.phase := by rw [scanFrom_eq]
@[simp] theorem scanFrom_errcode (base : Nat) (max : Word) (n : Nat) (s : State) :
    (scanFrom base max n s).1.errcode = s.errcode := by rw [scanFrom_eq]
@[simp] theorem scanFrom_retHash (base : Nat) (max : Word) (n : Nat) (s : State) :
    (scanFrom base max n s).1.retHash = s.retHash := by rw [scanFrom_eq]
@[simp] theorem scanFrom_rcount (base : Nat) (max : Word) (n : Nat) (s : State) :
    (scanFrom base max n s).1.rcount = s.rcount := by rw [scanFrom_eq]
@[simp] theorem scanFrom_capbits (base : Nat) (max : Word) (n : Nat) (s : State) :
    (scanFrom base max n s).1.capbits = s.capbits := by rw [scanFrom_eq]
@[simp] theorem scanFrom_mask (base : Nat) (max : Word) (n : Nat) (s : State) :
    (scanFrom base max n s).1.mask = s.mask := by rw [scanFrom_eq]
@[simp] theorem scanFrom_table (base : Nat) (max : Word) (n : Nat) (s : State) :
    (scanFrom base max n s).1.table = s.table := by rw [scanFrom_eq]
@[simp] theorem scanFrom_bits (base : Nat) (max : Word) (n : Nat) (s : State) :
    (scanFrom base max n s).1.bits = s.bits := by rw [scanFrom_eq]
@[simp] theorem scanFrom_txt (base : Nat) (max : Word) (n : Nat) (s : State) :
    (scanFrom base max n s).1.txt = s.txt := by rw [scanFrom_eq]
@[simp] theorem scanFrom_scS (base : Nat) (max : Word) (n : Nat) (s : State) :
    (scanFrom base max n s).1.scS = s.scS := by rw [scanFrom_eq]
@[simp] theorem scanFrom_g0 (base : Nat) (max : Word) (n : Nat) (s : State) :
    (scanFrom base max n s).1.g0 = s.g0 := by rw [scanFrom_eq]
@[simp] theorem scanFrom_g1 (base : Nat) (max : Word) (n : Nat) (s : State) :
    (scanFrom base max n s).1.g1 = s.g1 := by rw [scanFrom_eq]
@[simp] theorem scanFrom_resets (base : Nat) (max : Word) (n : Nat) (s : State) :
    (scanFrom base max n s).1.resets = s.resets := by rw [scanFrom_eq]
@[simp] theorem scanFrom_pending (base : Nat) (max : Word) (n : Nat) (s : State) :
    (scanFrom base max n s).1.pending = s.pending := by rw [scanFrom_eq]
@[simp] theorem scanFrom_response (base : Nat) (max : Word) (n : Nat) (s : State) :
    (scanFrom base max n s).1.response = s.response := by rw [scanFrom_eq]

/-- One turn of the outer loop. -/
theorem scanStarts_succ (base : Nat) (max : Word) (n : Nat) (s : State) :
    scanStarts base max (n + 1) s =
      if (scanFrom base max (n + 1) s.beginOffset).2 then (scanFrom base max (n + 1) s.beginOffset).1
      else scanStarts base max n (scanFrom base max (n + 1) s.beginOffset).1.nextOffset := by
  rw [scanStarts]
  rcases scanFrom base max (n + 1) s.beginOffset with ⟨u, stop⟩
  cases stop <;> rfl

/-- The outer loop writes SC_S besides, and nothing else. -/
theorem scanStarts_eq (base : Nat) (max : Word) (n : Nat) (s : State) :
    scanStarts base max n s =
      { s with
        scH := (scanStarts base max n s).scH
        scS := (scanStarts base max n s).scS
        scLen := (scanStarts base max n s).scLen
        scN := (scanStarts base max n s).scN
        res := (scanStarts base max n s).res } := by
  induction n generalizing s with
  | zero => rfl
  | succ n ih =>
    rw [scanStarts_succ]
    split_ifs
    · rw [scanFrom_eq]
      rfl
    · rw [ih, scanFrom_eq]
      rfl

@[simp] theorem scanStarts_params (base : Nat) (max : Word) (n : Nat) (s : State) :
    (scanStarts base max n s).params = s.params := by rw [scanStarts_eq]
@[simp] theorem scanStarts_arg0 (base : Nat) (max : Word) (n : Nat) (s : State) :
    (scanStarts base max n s).arg0 = s.arg0 := by rw [scanStarts_eq]
@[simp] theorem scanStarts_arg1 (base : Nat) (max : Word) (n : Nat) (s : State) :
    (scanStarts base max n s).arg1 = s.arg1 := by rw [scanStarts_eq]
@[simp] theorem scanStarts_arg2 (base : Nat) (max : Word) (n : Nat) (s : State) :
    (scanStarts base max n s).arg2 = s.arg2 := by rw [scanStarts_eq]
@[simp] theorem scanStarts_phase (base : Nat) (max : Word) (n : Nat) (s : State) :
    (scanStarts base max n s).phase = s.phase := by rw [scanStarts_eq]
@[simp] theorem scanStarts_errcode (base : Nat) (max : Word) (n : Nat) (s : State) :
    (scanStarts base max n s).errcode = s.errcode := by rw [scanStarts_eq]
@[simp] theorem scanStarts_retHash (base : Nat) (max : Word) (n : Nat) (s : State) :
    (scanStarts base max n s).retHash = s.retHash := by rw [scanStarts_eq]
@[simp] theorem scanStarts_rcount (base : Nat) (max : Word) (n : Nat) (s : State) :
    (scanStarts base max n s).rcount = s.rcount := by rw [scanStarts_eq]
@[simp] theorem scanStarts_capbits (base : Nat) (max : Word) (n : Nat) (s : State) :
    (scanStarts base max n s).capbits = s.capbits := by rw [scanStarts_eq]
@[simp] theorem scanStarts_mask (base : Nat) (max : Word) (n : Nat) (s : State) :
    (scanStarts base max n s).mask = s.mask := by rw [scanStarts_eq]
@[simp] theorem scanStarts_table (base : Nat) (max : Word) (n : Nat) (s : State) :
    (scanStarts base max n s).table = s.table := by rw [scanStarts_eq]
@[simp] theorem scanStarts_bits (base : Nat) (max : Word) (n : Nat) (s : State) :
    (scanStarts base max n s).bits = s.bits := by rw [scanStarts_eq]
@[simp] theorem scanStarts_txt (base : Nat) (max : Word) (n : Nat) (s : State) :
    (scanStarts base max n s).txt = s.txt := by rw [scanStarts_eq]
@[simp] theorem scanStarts_g0 (base : Nat) (max : Word) (n : Nat) (s : State) :
    (scanStarts base max n s).g0 = s.g0 := by rw [scanStarts_eq]
@[simp] theorem scanStarts_g1 (base : Nat) (max : Word) (n : Nat) (s : State) :
    (scanStarts base max n s).g1 = s.g1 := by rw [scanStarts_eq]
@[simp] theorem scanStarts_resets (base : Nat) (max : Word) (n : Nat) (s : State) :
    (scanStarts base max n s).resets = s.resets := by rw [scanStarts_eq]
@[simp] theorem scanStarts_pending (base : Nat) (max : Word) (n : Nat) (s : State) :
    (scanStarts base max n s).pending = s.pending := by rw [scanStarts_eq]
@[simp] theorem scanStarts_response (base : Nat) (max : Word) (n : Nat) (s : State) :
    (scanStarts base max n s).response = s.response := by rw [scanStarts_eq]

theorem State.searchText_eq (base len : Nat) (max : Word) (s : State) :
    s.searchText base len max =
      { s with
        res := (s.searchText base len max).res
        rcount := (s.searchText base len max).rcount
        scH := (s.searchText base len max).scH
        scS := (s.searchText base len max).scS
        scLen := (s.searchText base len max).scLen
        scN := (s.searchText base len max).scN } := by
  have h := scanStarts_eq base max len s.beginText
  unfold State.searchText
  rw [h]
  rfl

@[simp] theorem State.searchText_params (base len : Nat) (max : Word) (s : State) :
    (s.searchText base len max).params = s.params := by rw [State.searchText_eq]
@[simp] theorem State.searchText_arg0 (base len : Nat) (max : Word) (s : State) :
    (s.searchText base len max).arg0 = s.arg0 := by rw [State.searchText_eq]
@[simp] theorem State.searchText_arg1 (base len : Nat) (max : Word) (s : State) :
    (s.searchText base len max).arg1 = s.arg1 := by rw [State.searchText_eq]
@[simp] theorem State.searchText_arg2 (base len : Nat) (max : Word) (s : State) :
    (s.searchText base len max).arg2 = s.arg2 := by rw [State.searchText_eq]
@[simp] theorem State.searchText_phase (base len : Nat) (max : Word) (s : State) :
    (s.searchText base len max).phase = s.phase := by rw [State.searchText_eq]
@[simp] theorem State.searchText_errcode (base len : Nat) (max : Word) (s : State) :
    (s.searchText base len max).errcode = s.errcode := by rw [State.searchText_eq]
@[simp] theorem State.searchText_retHash (base len : Nat) (max : Word) (s : State) :
    (s.searchText base len max).retHash = s.retHash := by rw [State.searchText_eq]
@[simp] theorem State.searchText_capbits (base len : Nat) (max : Word) (s : State) :
    (s.searchText base len max).capbits = s.capbits := by rw [State.searchText_eq]
@[simp] theorem State.searchText_mask (base len : Nat) (max : Word) (s : State) :
    (s.searchText base len max).mask = s.mask := by rw [State.searchText_eq]
@[simp] theorem State.searchText_table (base len : Nat) (max : Word) (s : State) :
    (s.searchText base len max).table = s.table := by rw [State.searchText_eq]
@[simp] theorem State.searchText_bits (base len : Nat) (max : Word) (s : State) :
    (s.searchText base len max).bits = s.bits := by rw [State.searchText_eq]
@[simp] theorem State.searchText_txt (base len : Nat) (max : Word) (s : State) :
    (s.searchText base len max).txt = s.txt := by rw [State.searchText_eq]
@[simp] theorem State.searchText_g0 (base len : Nat) (max : Word) (s : State) :
    (s.searchText base len max).g0 = s.g0 := by rw [State.searchText_eq]
@[simp] theorem State.searchText_g1 (base len : Nat) (max : Word) (s : State) :
    (s.searchText base len max).g1 = s.g1 := by rw [State.searchText_eq]
@[simp] theorem State.searchText_resets (base len : Nat) (max : Word) (s : State) :
    (s.searchText base len max).resets = s.resets := by rw [State.searchText_eq]
@[simp] theorem State.searchText_pending (base len : Nat) (max : Word) (s : State) :
    (s.searchText base len max).pending = s.pending := by rw [State.searchText_eq]
@[simp] theorem State.searchText_response (base len : Nat) (max : Word) (s : State) :
    (s.searchText base len max).response = s.response := by rw [State.searchText_eq]

/-! ### Spans and candidates -/

/-- A span grows by the text's next byte. -/
theorem span_succ {text : List Byte} {start l : Nat} (h : start + l < text.length) :
    span text start (l + 1) = span text start l ++ [text[start + l]] := by
  unfold span
  have hl : l < (text.drop start).length := by
    rw [List.length_drop]; omega
  rw [List.take_succ_eq_append_getElem hl, List.getElem_drop]

@[simp] theorem span_zero (text : List Byte) (start : Nat) : span text start 0 = [] := by
  simp [span]

theorem State.textBytes_getElem (s : State) (base len i : Nat) (h : i < (s.textBytes base len).length) :
    (s.textBytes base len)[i] = s.textByte (base + i) := by
  simp [State.textBytes]

/-- A candidate depends on the index only. -/
theorem State.isCandidate_congr {s u : State} (ht : u.table = s.table) (hm : u.mask = s.mask)
    (hb : u.bits = s.bits) (text : List Byte) (start l : Nat) :
    u.isCandidate text start l = s.isCandidate text start l := by
  unfold State.isCandidate
  rw [ht, hm]
  simp only [State.testBit_congr hb]

theorem State.candidateRecord_congr {s u : State} (ht : u.table = s.table) (text : List Byte) (start l : Nat) :
    u.candidateRecord text start l = s.candidateRecord text start l := by
  unfold State.candidateRecord
  rw [ht]

/-- The records of the candidates from one start offset longer than `l`, among the next `n` lengths. -/
def State.candidatesFrom (s : State) (text : List Byte) (start l n : Nat) : List MatchRecord :=
  ((List.range n).filter (fun j => s.isCandidate text start (l + j + 1))).map
    (fun j => s.candidateRecord text start (l + j + 1))

theorem State.candidatesFrom_congr {s u : State} (ht : u.table = s.table) (hm : u.mask = s.mask)
    (hb : u.bits = s.bits) (text : List Byte) (start l n : Nat) :
    u.candidatesFrom text start l n = s.candidatesFrom text start l n := by
  unfold State.candidatesFrom
  simp only [State.isCandidate_congr ht hm hb, State.candidateRecord_congr ht]

@[simp] theorem State.candidatesFrom_zero (s : State) (text : List Byte) (start l : Nat) :
    s.candidatesFrom text start l 0 = [] := rfl

/-- The next length, then the others. -/
theorem State.candidatesFrom_succ (s : State) (text : List Byte) (start l n : Nat) :
    s.candidatesFrom text start l (n + 1) =
      (if s.isCandidate text start (l + 1) then [s.candidateRecord text start (l + 1)] else [])
        ++ s.candidatesFrom text start (l + 1) n := by
  unfold State.candidatesFrom
  rw [List.range_succ_eq_map, List.filter_cons, List.filter_map]
  simp only [Nat.add_zero, Function.comp_def, Nat.succ_eq_add_one]
  have e : ∀ j, l + (j + 1) + 1 = l + 1 + j + 1 := fun j => by omega
  simp only [e]
  split_ifs <;> simp [Function.comp_def, e]

/-- Pruning: past a prefix whose bit is unset there is no candidate (spec/43_search.md R185). -/
theorem State.candidatesFrom_pruned (s : State) (text : List Byte) (start l n : Nat)
    (h : s.testBit (prefixSlot s.mask (wordHash s.table (span text start (l + 1)))) = false) :
    s.candidatesFrom text start l n = [] := by
  unfold State.candidatesFrom
  rw [List.map_eq_nil_iff, List.filter_eq_nil_iff]
  intro j _
  unfold State.isCandidate
  simp only [Bool.and_eq_true, List.all_eq_true, List.mem_range, not_and]
  intro hall
  have := hall l (by omega)
  rw [h] at this
  cases this

/-- Where every prefix up to `l + 1` has its bit set, `(start, l + 1)` is a candidate when its terminator bit
is set. -/
theorem State.isCandidate_succ (s : State) (text : List Byte) (start l : Nat)
    (hpass : ∀ j ≤ l, s.testBit (prefixSlot s.mask (wordHash s.table (span text start (j + 1)))) = true) :
    s.isCandidate text start (l + 1)
      = s.testBit (terminatorSlot s.mask (wordHash s.table (span text start (l + 1)))) := by
  unfold State.isCandidate
  have : (List.range (l + 1)).all
      (fun j => s.testBit (prefixSlot s.mask (wordHash s.table (span text start (j + 1))))) = true := by
    rw [List.all_eq_true]
    intro j hj
    exact hpass j (by rw [List.mem_range] at hj; omega)
  rw [this, Bool.true_and]

/-! ### Emission -/

/-- The records a running SEARCH has emitted. -/
def State.emitted (s : State) : List MatchRecord :=
  (List.range s.scN.toNat).map s.record

@[simp] theorem State.emitted_length (s : State) : s.emitted.length = s.scN.toNat := by
  simp [State.emitted]

theorem State.record_emit (s : State) (i : Nat) :
    s.emit.record i =
      if i = s.scN.toNat then { start := s.scS, length := s.scLen, hash := s.scH } else s.record i :=
  State.record_storeRecord s i s.scN.toNat _

theorem State.emit_scN_toNat (s : State) (h : s.scN.toNat + 1 < 2 ^ 64) :
    s.emit.scN.toNat = s.scN.toNat + 1 := by
  rw [State.emit_scN, BitVec.toNat_add]
  exact Nat.mod_eq_of_lt (by simpa using h)

/-- Emission appends one record. -/
theorem State.emitted_emit (s : State) (h : s.scN.toNat + 1 < 2 ^ 64) :
    s.emit.emitted = s.emitted ++ [{ start := s.scS, length := s.scLen, hash := s.scH }] := by
  unfold State.emitted
  rw [State.emit_scN_toNat s h, List.range_succ, List.map_append]
  congr 1
  · apply List.map_congr_left
    intro i hi
    rw [State.record_emit, if_neg (by rw [List.mem_range] at hi; omega)]
  · simp [State.record_emit]

/-- What holds of a state reached by scanning from another: what the loops keep of the result memory. -/
structure ScanKeeps (max : Word) (s u : State) : Prop where
  /-- Records from SC_N on are not written. -/
  above : ∀ i, u.scN.toNat ≤ i → u.record i = s.record i
  grows : s.scN.toNat ≤ u.scN.toNat
  rising : Cells.Rising s.res → Cells.Rising u.res
  inside : ∀ e ∈ u.res, e ∈ s.res ∨ e.1 < max.toNat
  written : (∀ i < s.scN.toNat, (Cells.read? i s.res).isSome) → ∀ i < u.scN.toNat, (Cells.read? i u.res).isSome
  /-- What was written stays written. -/
  kept : ∀ i, (Cells.read? i s.res).isSome → (Cells.read? i u.res).isSome

theorem ScanKeeps.of_same {max : Word} {s u : State} (hr : u.res = s.res) (hn : u.scN = s.scN)
    (hrs : u.resets = s.resets) : ScanKeeps max s u where
  above := fun i _ => by unfold State.record; rw [hr, hrs]
  grows := by rw [hn]
  rising := by rw [hr]; exact id
  inside := by rw [hr]; exact fun e he => .inl he
  written := by rw [hr, hn]; exact id
  kept := by rw [hr]; exact fun _ => id

theorem ScanKeeps.trans {max : Word} {s t u : State} (h : ScanKeeps max s t) (k : ScanKeeps max t u) :
    ScanKeeps max s u where
  above := fun i hi => (k.above i hi).trans (h.above i (le_trans k.grows hi))
  grows := le_trans h.grows k.grows
  rising := k.rising ∘ h.rising
  inside := fun e he => (k.inside e he).elim (fun he => h.inside e he) .inr
  written := k.written ∘ h.written
  kept := fun i => k.kept i ∘ h.kept i

theorem ScanKeeps.of_emit {max : Word} {s : State} (h : s.scN.toNat < max.toNat) :
    ScanKeeps max s s.emit := by
  have hlt : s.scN.toNat + 1 < 2 ^ 64 := by have := max.isLt; omega
  refine ⟨fun i hi => ?_, ?_, Cells.rising_write, fun e he => ?_, fun hs i hi => ?_, fun i hi => ?_⟩
  · rw [State.emit_scN_toNat s hlt] at hi
    rw [State.record_emit, if_neg (by omega)]
  · rw [State.emit_scN_toNat s hlt]
    omega
  · rcases Cells.mem_write he with rfl | he
    · exact .inr h
    · exact .inl he
  · rw [State.emit_scN_toNat s hlt] at hi
    rw [State.emit_res, Cells.read?_write]
    split_ifs with heq
    · rfl
    · exact hs i (by omega)
  · rw [State.emit_res, Cells.read?_write]
    split_ifs
    · rfl
    · exact hi

/-! ### The loops -/

/-- The inner loop: from a start offset with `l` bytes consumed, none of their prefixes pruned, and the bound
not reached, it emits the longer candidates in order until the bound is reached (spec/43_search.md R185 to
R188). -/
theorem scanFrom_spec (base len : Nat) (max : Word) (n : Nat) (s : State) (hlen : len < 2 ^ 64)
    (hn : s.scS.toNat + s.scLen.toNat + n = len) (hmax : s.scN.toNat < max.toNat)
    (hh : s.scH = wordHash s.table (span (s.textBytes base len) s.scS.toNat s.scLen.toNat))
    (hpass : ∀ j < s.scLen.toNat, s.testBit (prefixSlot s.mask
      (wordHash s.table (span (s.textBytes base len) s.scS.toNat (j + 1)))) = true) :
    (scanFrom base max n s).1.emitted
        = (s.emitted ++ s.candidatesFrom (s.textBytes base len) s.scS.toNat s.scLen.toNat n).take max.toNat
      ∧ ((scanFrom base max n s).2 = true ↔ (scanFrom base max n s).1.scN = max)
      ∧ ScanKeeps max s (scanFrom base max n s).1 := by
  induction n generalizing s with
  | zero =>
    have htake : s.emitted.take max.toNat = s.emitted :=
      List.take_of_length_le (by rw [State.emitted_length]; omega)
    refine ⟨by simp [scanFrom, htake], ?_, ScanKeeps.of_same rfl rfl rfl⟩
    simp only [scanFrom, Bool.false_eq_true, false_iff]
    rintro rfl
    exact lt_irrefl _ hmax
  | succ n ih =>
    have hl1 : (s.consume (base + s.scS.toNat + s.scLen.toNat)).scLen.toNat = s.scLen.toNat + 1 := by
      rw [State.consume_scLen, BitVec.toNat_add]
      exact Nat.mod_eq_of_lt (by simp; omega)
    have hh1 : (s.consume (base + s.scS.toNat + s.scLen.toNat)).scH
        = wordHash s.table (span (s.textBytes base len) s.scS.toNat (s.scLen.toNat + 1)) := by
      rw [State.consume_scH, span_succ (by rw [State.textBytes_length]; omega), wordHash_append_singleton, ← hh,
        State.textBytes_getElem, Nat.add_assoc]
    set c := s.consume (base + s.scS.toNat + s.scLen.toNat) with hc
    have ctext : c.textBytes base len = s.textBytes base len := State.textBytes_congr rfl rfl base len
    have cbit : ∀ p, c.testBit p = s.testBit p := State.testBit_congr rfl
    have cmask : c.mask = s.mask := rfl
    have cemitted : c.emitted = s.emitted := rfl
    simp only [scanFrom, ← hc]
    by_cases hp : c.testBit (prefixSlot c.mask c.scH) = false
    · rw [if_pos hp]
      rw [cbit, cmask, hh1] at hp
      refine ⟨?_, ?_, ScanKeeps.of_same rfl rfl rfl⟩
      · rw [State.candidatesFrom_pruned s _ _ _ _ hp, List.append_nil]
        show s.emitted = _
        exact (List.take_of_length_le (by rw [State.emitted_length]; omega)).symm
      · simp only [Bool.false_eq_true, false_iff]
        intro hm
        have hm' : s.scN = max := hm
        rw [hm'] at hmax
        exact lt_irrefl _ hmax
    · rw [if_neg hp]
      rw [cbit, cmask, hh1, Bool.not_eq_false] at hp
      have hpass' : ∀ j ≤ s.scLen.toNat, s.testBit (prefixSlot s.mask
          (wordHash s.table (span (s.textBytes base len) s.scS.toNat (j + 1)))) = true := by
        intro j hj
        rcases Nat.lt_or_eq_of_le hj with h | h
        · exact hpass j h
        · rw [h]; exact hp
      have hcand := State.isCandidate_succ s _ _ _ hpass'
      rw [State.candidatesFrom_succ, hcand, cbit, cmask, hh1]
      by_cases ht : s.testBit (terminatorSlot s.mask
          (wordHash s.table (span (s.textBytes base len) s.scS.toNat (s.scLen.toNat + 1)))) = true
      · rw [if_pos ht, if_pos ht]
        have hlt : c.scN.toNat + 1 < 2 ^ 64 := by
          have := max.isLt
          have : c.scN.toNat = s.scN.toNat := rfl
          omega
        have hrec : ({ start := c.scS, length := c.scLen, hash := c.scH } : MatchRecord)
            = s.candidateRecord (s.textBytes base len) s.scS.toNat (s.scLen.toNat + 1) := by
          unfold State.candidateRecord
          rw [hh1, ← hl1, BitVec.ofNat_toNat, BitVec.ofNat_toNat, BitVec.setWidth_eq, BitVec.setWidth_eq]
          rfl
        have hem : c.emit.emitted
            = s.emitted ++ [s.candidateRecord (s.textBytes base len) s.scS.toNat (s.scLen.toNat + 1)] := by
          rw [State.emitted_emit c hlt, hrec, cemitted]
        have hkeep : ScanKeeps max s c.emit :=
          ScanKeeps.trans (t := c) (ScanKeeps.of_same rfl rfl rfl) (ScanKeeps.of_emit hmax)
        have hN : c.emit.scN.toNat = s.scN.toNat + 1 := State.emit_scN_toNat c hlt
        by_cases hm : c.emit.scN = max
        · rw [if_pos hm]
          refine ⟨?_, ⟨fun _ => hm, fun _ => rfl⟩, hkeep⟩
          rw [← List.append_assoc, ← hem]
          symm
          apply List.take_left'
          rw [State.emitted_length, hm]
        · rw [if_neg hm]
          have hlt' : c.emit.scN.toNat < max.toNat := by
            rcases Nat.lt_or_ge c.emit.scN.toNat max.toNat with h | h
            · exact h
            · exact absurd (BitVec.eq_of_toNat_eq (by omega)) hm
          have etext : c.emit.textBytes base len = s.textBytes base len := State.textBytes_congr rfl rfl base len
          have ebit : ∀ p, c.emit.testBit p = s.testBit p := State.testBit_congr rfl
          have hS : c.emit.scS = s.scS := rfl
          have hT : c.emit.table = s.table := rfl
          have hM : c.emit.mask = s.mask := rfl
          have hL : c.emit.scLen.toNat = s.scLen.toNat + 1 := hl1
          obtain ⟨h1, h2, h3⟩ := ih c.emit (by rw [hS, hL]; omega) hlt'
            (by rw [etext, hS, hT, hL]; exact hh1)
            (by
              intro j hj
              rw [hL] at hj
              rw [ebit, etext, hS, hT, hM]
              exact hpass' j (by omega))
          refine ⟨?_, h2, ScanKeeps.trans hkeep h3⟩
          rw [h1, hem, etext, hS, hL, State.candidatesFrom_congr (s := s) (u := c.emit) rfl rfl rfl,
              List.append_assoc]
      · rw [if_neg ht, if_neg ht]
        have hS : c.scS = s.scS := rfl
        have hT : c.table = s.table := rfl
        obtain ⟨h1, h2, h3⟩ := ih c (by rw [hS, hl1]; omega) hmax
          (by rw [ctext, hS, hT, hl1]; exact hh1)
          (by
            intro j hj
            rw [hl1] at hj
            rw [cbit, ctext, hS, hT, cmask]
            exact hpass' j (by omega))
        refine ⟨?_, h2, ScanKeeps.trans (t := c) (ScanKeeps.of_same rfl rfl rfl) h3⟩
        rw [h1, cemitted, ctext, hS, hl1, State.candidatesFrom_congr (s := s) (u := c) rfl rfl rfl,
            List.nil_append]

/-- The records of the candidates from the next `n` start offsets. -/
def State.candidatesOver (s : State) (text : List Byte) (start n : Nat) : List MatchRecord :=
  (List.range n).flatMap (fun k => s.candidatesFrom text (start + k) 0 (n - k))

theorem State.candidatesOver_congr {s u : State} (ht : u.table = s.table) (hm : u.mask = s.mask)
    (hb : u.bits = s.bits) (text : List Byte) (start n : Nat) :
    u.candidatesOver text start n = s.candidatesOver text start n := by
  unfold State.candidatesOver
  simp only [State.candidatesFrom_congr ht hm hb]

theorem State.candidatesOver_succ (s : State) (text : List Byte) (start n : Nat) :
    s.candidatesOver text start (n + 1)
      = s.candidatesFrom text start 0 (n + 1) ++ s.candidatesOver text (start + 1) n := by
  unfold State.candidatesOver
  rw [List.range_succ_eq_map, List.flatMap_cons, List.flatMap_map]
  simp only [Nat.add_zero, Nat.sub_zero, Nat.succ_eq_add_one, Nat.add_sub_add_right]
  congr 1
  apply List.flatMap_congr
  intro k _
  rw [Nat.add_assoc, Nat.add_comm 1 k]

/-- All candidates of a text, as records. -/
theorem State.candidatesOver_all (s : State) (text : List Byte) :
    s.candidatesOver text 0 text.length
      = (s.candidates text).map (fun c => s.candidateRecord text c.1 c.2) := by
  unfold State.candidatesOver State.candidates State.candidatesFrom
  rw [List.map_flatMap]
  simp only [Nat.zero_add, List.map_map, Function.comp_def]

/-- The outer loop: it emits the candidates of the remaining start offsets in order until the bound is
reached. -/
theorem scanStarts_spec (base len : Nat) (max : Word) (n : Nat) (s : State) (hlen : len < 2 ^ 64)
    (hn : s.scS.toNat + n = len) (hmax : s.scN.toNat < max.toNat) :
    (scanStarts base max n s).emitted
        = (s.emitted ++ s.candidatesOver (s.textBytes base len) s.scS.toNat n).take max.toNat
      ∧ ScanKeeps max s (scanStarts base max n s) := by
  induction n generalizing s with
  | zero =>
    have htake : s.emitted.take max.toNat = s.emitted :=
      List.take_of_length_le (by rw [State.emitted_length]; omega)
    exact ⟨by simp [scanStarts, State.candidatesOver, htake], ScanKeeps.of_same rfl rfl rfl⟩
  | succ n ih =>
    obtain ⟨h1, h2, h3⟩ := scanFrom_spec base len max (n + 1) s.beginOffset hlen
      (by simpa using hn) hmax (by simp) (by simp)
    have hkeep : ScanKeeps max s (scanFrom base max (n + 1) s.beginOffset).1 :=
      ScanKeeps.trans (t := s.beginOffset) (ScanKeeps.of_same rfl rfl rfl) h3
    have hem : s.beginOffset.emitted = s.emitted := rfl
    rw [hem, State.textBytes_congr (State.beginOffset_txt s) (State.beginOffset_resets s),
      State.candidatesFrom_congr (s := s) (u := s.beginOffset) rfl rfl rfl] at h1
    simp only [State.beginOffset_scS, State.beginOffset_scLen, BitVec.toNat_ofNat, Nat.zero_mod] at h1
    have hlenu := congrArg List.length h1
    rw [State.emitted_length, List.length_take] at hlenu
    rw [State.candidatesOver_succ, ← List.append_assoc, scanStarts_succ]
    set u := (scanFrom base max (n + 1) s.beginOffset).1 with hu
    have hS : u.scS = s.scS := by rw [hu, scanFrom_scS, State.beginOffset_scS]
    by_cases hstop : (scanFrom base max (n + 1) s.beginOffset).2 = true
    · rw [if_pos hstop]
      refine ⟨?_, hkeep⟩
      have hmaxu := congrArg BitVec.toNat (h2.1 hstop)
      rw [List.take_append_of_le_length (by omega), ← h1]
    · rw [if_neg hstop]
      have huN : u.nextOffset.scN.toNat < max.toNat := by
        have hne : u.scN.toNat ≠ max.toNat := fun h => hstop (h2.2 (BitVec.eq_of_toNat_eq h))
        rw [State.nextOffset_scN]
        omega
      have hS1 : u.nextOffset.scS.toNat = s.scS.toNat + 1 := by
        rw [State.nextOffset_scS, BitVec.toNat_add, hS]
        exact Nat.mod_eq_of_lt (by simp; omega)
      have htx : u.nextOffset.textBytes base len = s.textBytes base len :=
        State.textBytes_congr (by simp [hu]) (by simp [hu]) base len
      obtain ⟨k1, k2⟩ := ih u.nextOffset (by rw [hS1]; omega) huN
      have hue : u.nextOffset.emitted = u.emitted := rfl
      have hcut : u.emitted = s.emitted ++ s.candidatesFrom (s.textBytes base len) s.scS.toNat 0 (n + 1) := by
        rw [h1]
        apply List.take_of_length_le
        rw [State.nextOffset_scN] at huN
        omega
      refine ⟨?_, hkeep.trans (ScanKeeps.trans (t := u.nextOffset) (ScanKeeps.of_same rfl rfl rfl) k2)⟩
      rw [k1, hue, htx, hS1, hcut,
        State.candidatesOver_congr (s := s) (u := u.nextOffset) (by simp [hu]) (by simp [hu]) (by simp [hu])]

/-- SEARCH after its checks: RES holds the first `max` candidates in order, RCOUNT their number
(spec/43_search.md R190), and the rest of the result memory is as `ScanKeeps` says. -/
theorem State.searchText_spec (base len : Nat) (max : Word) (s : State) (hlen : len < 2 ^ 64)
    (hmax : 0 < max.toNat) :
    (s.searchText base len max).records
        = ((s.candidates (s.textBytes base len)).map
            (fun c => s.candidateRecord (s.textBytes base len) c.1 c.2)).take max.toNat
      ∧ (s.searchText base len max).scN = (s.searchText base len max).rcount
      ∧ ScanKeeps max { s with scN := 0#64 } (s.searchText base len max) := by
  obtain ⟨h1, h2⟩ := scanStarts_spec base len max len s.beginText hlen (by simp) (by simpa using hmax)
  refine ⟨?_, rfl, ScanKeeps.trans (t := s.beginText) (ScanKeeps.of_same rfl rfl rfl)
    (h2.trans (ScanKeeps.of_same rfl rfl rfl))⟩
  have hrec : (s.searchText base len max).records = (scanStarts base max len s.beginText).emitted := rfl
  have hnil : s.beginText.emitted = [] := by simp [State.emitted]
  have hall := State.candidatesOver_all s (s.textBytes base len)
  rw [State.textBytes_length] at hall
  rw [hrec, h1, hnil, List.nil_append, State.textBytes_congr (State.beginText_txt s) (State.beginText_resets s),
    State.candidatesOver_congr (s := s) (u := s.beginText) rfl rfl rfl, ← hall]
  simp

/-- Which pairs are candidates. -/
theorem State.mem_candidates (s : State) (text : List Byte) (c : Nat × Nat) :
    c ∈ s.candidates text ↔
      c.1 < text.length ∧ 1 ≤ c.2 ∧ c.1 + c.2 ≤ text.length ∧ s.isCandidate text c.1 c.2 = true := by
  obtain ⟨a, l⟩ := c
  simp only [State.candidates, List.mem_flatMap, List.mem_map, List.mem_filter, List.mem_range, Prod.mk.injEq]
  constructor
  · rintro ⟨st, hst, j, ⟨hj, hc⟩, rfl, rfl⟩
    exact ⟨hst, by omega, by omega, hc⟩
  · rintro ⟨h1, h2, h3, h4⟩
    refine ⟨a, h1, l - 1, ⟨by omega, ?_⟩, rfl, by omega⟩
    rw [Nat.sub_add_cancel h2]; exact h4

/-- No candidate is listed twice. -/
theorem State.candidates_nodup (s : State) (text : List Byte) : (s.candidates text).Nodup := by
  unfold State.candidates
  rw [List.nodup_flatMap]
  refine ⟨fun a _ => ?_, ?_⟩
  · apply List.Nodup.map
    · intro x y h; simp at h; omega
    · exact List.nodup_range.filter _
  · apply List.nodup_range.imp
    intro x y hxy
    simp only [Function.onFun, List.disjoint_left, List.mem_map, not_exists]
    rintro c ⟨j, hj, rfl⟩ k ⟨hk, h⟩
    simp at h
    exact hxy h.1.symm

end Sys2Proof.Machine
end

