-- ==== Sys2Proof/Laws/Exec.lean ====
section
/-! SUPPORT. What each instruction can do, once: every meaning answers a next state, and which. -/

namespace Sys2Proof.Machine

/-! ### Operand checks -/

/-- `LegalCap(c)`: a power of two from 2^6 to 2^63 (spec/41_index_store.md R141). -/
theorem legalCap_iff (c : Word) : legalCap c = true ↔ ∃ k, 6 ≤ k ∧ k ≤ 63 ∧ c.toNat = 2 ^ k := by
  have hmod : (c.extractLsb' 0 6).toNat = c.toNat % 64 := by
    simp [BitVec.extractLsb'_toNat]
  have hform : legalCap c = true ↔ c ≠ 0#64 ∧ c.toNat % 64 = 0 ∧ c &&& (c - 1#64) = 0#64 := by
    unfold legalCap
    rw [Bool.and_eq_true, Bool.and_eq_true, bne_iff_ne, beq_iff_eq, beq_iff_eq, ← hmod, and_assoc]
    constructor
    · rintro ⟨h1, h2, h3⟩
      exact ⟨h1, by rw [h2]; rfl, h3⟩
    · rintro ⟨h1, h2, h3⟩
      exact ⟨h1, BitVec.eq_of_toNat_eq h2, h3⟩
  rw [hform]
  have hsub (hne : c ≠ 0#64) : (c - 1#64).toNat = c.toNat - 1 := by
    have hpos : c.toNat ≠ 0 := fun h => hne (BitVec.eq_of_toNat_eq h)
    have := c.isLt
    rw [BitVec.toNat_sub]
    simp
    omega
  constructor
  · rintro ⟨hne, h64, hand⟩
    have hpos : c.toNat ≠ 0 := fun h => hne (BitVec.eq_of_toNat_eq h)
    have hand' : c.toNat &&& (c.toNat - 1) = 0 := by
      rw [← hsub hne, ← BitVec.toNat_and, hand]
      rfl
    obtain ⟨k, hk⟩ := (Nat.and_sub_one_eq_zero_iff_isPowerOfTwo hpos).1 hand'
    refine ⟨k, ?_, ?_, hk⟩
    · by_contra hlt
      rw [hk] at h64
      interval_cases k <;> simp at h64
    · by_contra hlt
      have h1 : 2 ^ 64 ≤ 2 ^ k := Nat.pow_le_pow_right (by decide) (by omega)
      have := c.isLt
      omega
  · rintro ⟨k, h6, h63, hk⟩
    have hpos : c.toNat ≠ 0 := by rw [hk]; positivity
    have hne : c ≠ 0#64 := fun h => hpos (by rw [h]; rfl)
    refine ⟨hne, ?_, ?_⟩
    · obtain ⟨d, rfl⟩ := Nat.exists_eq_add_of_le h6
      rw [hk, Nat.pow_add, show 2 ^ 6 = 64 from rfl]
      exact Nat.mul_mod_right 64 _
    · apply BitVec.eq_of_toNat_eq
      rw [BitVec.toNat_and, hsub hne]
      exact (Nat.and_sub_one_eq_zero_iff_isPowerOfTwo hpos).2 ⟨k, hk⟩

theorem State.inRange_iff (s : State) (base len : Word) :
    s.inRange base len = true
      ↔ base.toNat ≤ s.params.txtBytes ∧ len.toNat ≤ s.params.txtBytes - base.toNat := by
  simp [State.inRange]

theorem State.legalBound_iff (s : State) (max : Word) :
    s.legalBound max = true ↔ max ≠ 0#64 ∧ max.toNat ≤ s.params.resEntries := by
  simp [State.legalBound]

/-! ### Commands: each ends in one of its outcomes -/

theorem execAlloc_cases (s : State) :
    (s.phase ≠ .empty ∧ execAlloc s = .next (s.endCommand .invalidState))
    ∨ (s.phase = .empty ∧ legalCap s.arg0 = false ∧ execAlloc s = .next (s.endCommand .configError))
    ∨ (s.phase = .empty ∧ legalCap s.arg0 = true ∧ 2 ^ s.params.capLog2Max < s.arg0.toNat
        ∧ execAlloc s = .next (s.endCommand .allocationError))
    ∨ (s.phase = .empty ∧ legalCap s.arg0 = true ∧ s.arg0.toNat ≤ 2 ^ s.params.capLog2Max
        ∧ execAlloc s = .next (State.endCommand .ok ((s.zeroBits (s.arg0.toNat / 64)).openIndex s.arg0))) := by
  unfold execAlloc raise
  split_ifs with h1 h2 h3
  · exact .inl ⟨h1, rfl⟩
  · exact .inr (.inl ⟨not_not.1 h1, h2, rfl⟩)
  · exact .inr (.inr (.inl ⟨not_not.1 h1, by simpa using h2, h3, rfl⟩))
  · exact .inr (.inr (.inr ⟨not_not.1 h1, by simpa using h2, not_lt.1 h3, rfl⟩))

theorem execInit_cases (s : State) :
    (s.phase ≠ .allocated ∧ execInit s = .next (s.endCommand .invalidState))
    ∨ (s.phase = .allocated
        ∧ execInit s = .next (State.endCommand .ok (s.runGenTable s.arg0).markReady)) := by
  unfold execInit raise
  split_ifs with h1
  · exact .inl ⟨h1, rfl⟩
  · exact .inr ⟨not_not.1 h1, rfl⟩

theorem execInsert_cases (s : State) :
    (s.phase ≠ .ready ∧ execInsert s = .next (s.endCommand .invalidState))
    ∨ (s.phase = .ready ∧ s.inRange s.arg0 s.arg1 = false ∧ execInsert s = .next (s.endCommand .operandError))
    ∨ (s.phase = .ready ∧ s.inRange s.arg0 s.arg1 = true
        ∧ execInsert s = .next (State.endCommand .ok (s.insertWord s.arg0.toNat s.arg1.toNat))) := by
  unfold execInsert raise
  split_ifs with h1 h2
  · exact .inl ⟨h1, rfl⟩
  · exact .inr (.inl ⟨not_not.1 h1, h2, rfl⟩)
  · exact .inr (.inr ⟨not_not.1 h1, by simpa using h2, rfl⟩)

theorem execSearch_cases (s : State) :
    (s.phase ≠ .ready ∧ execSearch s = .next (s.endCommand .invalidState))
    ∨ (s.phase = .ready ∧ (s.inRange s.arg0 s.arg1 = false ∨ s.legalBound s.arg2 = false)
        ∧ execSearch s = .next (s.endCommand .operandError))
    ∨ (s.phase = .ready ∧ s.inRange s.arg0 s.arg1 = true ∧ s.legalBound s.arg2 = true
        ∧ execSearch s
          = .next (State.endCommand .ok (s.searchText s.arg0.toNat s.arg1.toNat s.arg2))) := by
  unfold execSearch raise
  split_ifs with h1 h2 h3
  · exact .inl ⟨h1, rfl⟩
  · exact .inr (.inl ⟨not_not.1 h1, .inl h2, rfl⟩)
  · exact .inr (.inl ⟨not_not.1 h1, .inr h3, rfl⟩)
  · exact .inr (.inr ⟨not_not.1 h1, by simpa using h2, by simpa using h3, rfl⟩)

theorem execRelease_cases (s : State) :
    (s.phase = .empty ∧ execRelease s = .next (s.endCommand .invalidState))
    ∨ (s.phase ≠ .empty ∧ execRelease s = .next (State.endCommand .ok s.closeIndex)) := by
  unfold execRelease raise
  split_ifs with h1
  · exact .inl ⟨h1, rfl⟩
  · exact .inr ⟨h1, rfl⟩

/-- A CMD write of the word of a command is that command. -/
theorem execCommandWord_encode (c : Command) (s : State) :
    execCommandWord (encodeCommand c) s = exec c.instr s := by
  cases c <;> rfl

theorem execCommandWord_illegal {cw : Word} (h : decodeCommand cw = none) (s : State) :
    execCommandWord cw s = .next (s.endCommand .illegalCommand) := by
  unfold execCommandWord raise
  rw [h]

/-! ### Port transactions -/

/-- The answer to a read: `s` with its response. -/
theorem State.answerRead_eq (v : Option Word) (s : State) :
    s.answerRead v = { s with response := some ((v.map Response.okayData).getD .fault) } := by
  cases v <;> rfl

/-- A register write that is no CMD write writes one of ARG0 to ARG2. -/
theorem State.writeRegister_cases (n v : Word) (s : State) :
    (n.toNat = 1 ∧ s.writeRegister n v = some { s with arg0 := v })
    ∨ (n.toNat = 2 ∧ s.writeRegister n v = some { s with arg1 := v })
    ∨ (n.toNat = 3 ∧ s.writeRegister n v = some { s with arg2 := v })
    ∨ ((n.toNat = 0 ∨ 4 ≤ n.toNat) ∧ s.writeRegister n v = none) := by
  unfold State.writeRegister
  split
  · exact .inl ⟨‹_›, rfl⟩
  · exact .inr (.inl ⟨‹_›, rfl⟩)
  · exact .inr (.inr (.inl ⟨‹_›, rfl⟩))
  · rename_i h1 h2 h3
    simp only [imp_false] at h1 h2 h3
    exact .inr (.inr (.inr ⟨by omega, rfl⟩))

/-- A register read fails at CMD and above 13 only. -/
theorem State.readRegister_eq_none_iff (n : Word) (s : State) :
    s.readRegister n = none ↔ n.toNat = 0 ∨ 14 ≤ n.toNat := by
  unfold State.readRegister
  split <;> simp <;> (try simp only [imp_false] at *) <;> omega

/-! ### The step -/

theorem step_idle {s : State} (h : s.pending = []) : step s = .next s := by
  unfold step
  rw [h]

theorem step_reset {s : State} {rest : List Event} (h : s.pending = .reset :: rest) :
    step s = .next (State.afterReset s.params (s.resets + 1) rest) := by
  unfold step
  rw [h]
  rfl

theorem step_transaction {s : State} {t : Transaction} {rest : List Event}
    (h : s.pending = .transaction t :: rest) :
    step s = execTransaction t { s with pending := rest } := by
  unfold step
  rw [h]

/-- The conditions of a port fault, one after another. -/
theorem State.portFaults_iff (s : State) (t : Transaction) :
    s.PortFaults t ↔
      5 ≤ t.space.toNat
      ∨ (t.space = 0#3 ∧ 14 ≤ t.addr.toNat)
      ∨ (t.space = 0#3 ∧ t.we = false ∧ t.addr = 0#64)
      ∨ (t.space = 0#3 ∧ t.we = true ∧ 4 ≤ t.addr.toNat ∧ t.addr.toNat ≤ 13)
      ∨ (t.space = 1#3 ∧ s.params.txtBytes ≤ t.addr.toNat)
      ∨ ((t.space = 2#3 ∨ t.space = 3#3 ∨ t.space = 4#3) ∧ t.we = true)
      ∨ (t.space = 2#3 ∧ t.we = false ∧ s.rcount.toNat ≤ t.addr.toNat / 4)
      ∨ (t.space = 3#3 ∧ t.we = false ∧ (s.phase = .empty ∨ s.capbits.toNat / 64 ≤ t.addr.toNat))
      ∨ (t.space = 4#3 ∧ t.we = false ∧ (s.phase ≠ .ready ∨ 256 ≤ t.addr.toNat)) := by
  constructor
  · rintro ⟨n, h⟩
    match n with
    | 1 => exact .inl h
    | 2 => exact .inr (.inl h)
    | 3 => exact .inr (.inr (.inl h))
    | 4 => exact .inr (.inr (.inr (.inl h)))
    | 5 => exact .inr (.inr (.inr (.inr (.inl h))))
    | 6 => exact .inr (.inr (.inr (.inr (.inr (.inl h)))))
    | 7 => exact .inr (.inr (.inr (.inr (.inr (.inr (.inl h))))))
    | 8 => exact .inr (.inr (.inr (.inr (.inr (.inr (.inr (.inl h)))))))
    | 9 => exact .inr (.inr (.inr (.inr (.inr (.inr (.inr (.inr h)))))))
    | 0 => exact h.elim
    | n + 10 => exact h.elim
  · rintro (h | h | h | h | h | h | h | h | h)
    exacts [⟨1, h⟩, ⟨2, h⟩, ⟨3, h⟩, ⟨4, h⟩, ⟨5, h⟩, ⟨6, h⟩, ⟨7, h⟩, ⟨8, h⟩, ⟨9, h⟩]

/-! ### A command that succeeded -/

theorem execAlloc_ok {s u : State} (e : execAlloc s = .next u) (h : u.errcode = .ok) :
    s.phase = .empty ∧ u = (State.endCommand .ok ((s.zeroBits (s.arg0.toNat / 64)).openIndex s.arg0)) := by
  rcases execAlloc_cases s with ⟨_, h1⟩ | ⟨_, _, h1⟩ | ⟨_, _, _, h1⟩ | ⟨hp, hl, hle, h1⟩ <;> rw [h1] at e <;>
      cases e <;> simp_all
theorem execInit_ok {s u : State} (e : execInit s = .next u) (h : u.errcode = .ok) :
    s.phase = .allocated ∧ u = (State.endCommand .ok (s.runGenTable s.arg0).markReady) := by
  rcases execInit_cases s with ⟨_, h1⟩ | ⟨hp, h1⟩ <;> rw [h1] at e <;> cases e <;> simp_all
theorem execInsert_ok {s u : State} (e : execInsert s = .next u) (h : u.errcode = .ok) :
    s.phase = .ready ∧ u = (State.endCommand .ok (s.insertWord s.arg0.toNat s.arg1.toNat)) := by
  rcases execInsert_cases s with ⟨_, h1⟩ | ⟨_, _, h1⟩ | ⟨hp, hl, h1⟩ <;> rw [h1] at e <;> cases e <;> simp_all
theorem execSearch_ok {s u : State} (e : execSearch s = .next u) (h : u.errcode = .ok) :
    s.phase = .ready ∧ u = (State.endCommand .ok (s.searchText s.arg0.toNat s.arg1.toNat s.arg2)) := by
  rcases execSearch_cases s with ⟨_, h1⟩ | ⟨_, _, h1⟩ | ⟨hp, hl, hb, h1⟩ <;> rw [h1] at e <;> cases e <;> simp_all
theorem execRelease_ok {s u : State} (e : execRelease s = .next u) (h : u.errcode = .ok) :
    s.phase ≠ .empty ∧ u = (State.endCommand .ok s.closeIndex) := by
  rcases execRelease_cases s with ⟨_, h1⟩ | ⟨hp, h1⟩ <;> rw [h1] at e <;> cases e <;> simp_all

theorem State.legalBound_iff_le (s : State) (m : Word) : s.legalBound m = true ↔
    1 ≤ m.toNat ∧ m.toNat ≤ s.params.resEntries := by
  rw [State.legalBound_iff]
  have : m ≠ 0#64 ↔ 1 ≤ m.toNat := by
    constructor
    · intro h; rcases Nat.eq_zero_or_pos m.toNat with h0 | h0
      · exact absurd (BitVec.eq_of_toNat_eq h0) h
      · exact h0
    · rintro h rfl; simp at h
  rw [this]

theorem execInsert_of_inRange {s : State} (hp : s.phase = .ready) (h0 : s.arg0.toNat ≤ s.params.txtBytes)
    (h1 : s.arg1.toNat ≤ s.params.txtBytes - s.arg0.toNat) :
    execInsert s = .next (State.endCommand .ok (s.insertWord s.arg0.toNat s.arg1.toNat)) := by
  have := (State.inRange_iff s s.arg0 s.arg1).2 ⟨h0, h1⟩
  rcases execInsert_cases s with ⟨h, e⟩ | ⟨_, h, e⟩ | ⟨_, _, e⟩
  · exact absurd hp h
  · simp_all
  · exact e

theorem execSearch_of_legal {s : State} (hp : s.phase = .ready) (h0 : s.arg0.toNat ≤ s.params.txtBytes)
    (h1 : s.arg1.toNat ≤ s.params.txtBytes - s.arg0.toNat) (h2 : 1 ≤ s.arg2.toNat) (h3 : s.arg2.toNat ≤ s.params.resEntries) :
    execSearch s = .next (State.endCommand .ok (s.searchText s.arg0.toNat s.arg1.toNat s.arg2)) := by
  have := (State.inRange_iff s s.arg0 s.arg1).2 ⟨h0, h1⟩
  have := (State.legalBound_iff_le s s.arg2).2 ⟨h2, h3⟩
  rcases execSearch_cases s with ⟨h, e⟩ | ⟨_, h, e⟩ | ⟨_, _, _, e⟩
  · exact absurd hp h
  · simp_all
  · exact e

/-! ### A transaction -/

/-- Everything an accepted transaction can do: answer only, write one of ARG0 to ARG2, store a byte of text, or run
a command, which fails or succeeds. -/
theorem execTransaction_cases (t : Transaction) (s u : State) (e : execTransaction t s = .next u) :
    (∃ r, u = { s with response := some r })
    ∨ (∃ v, decode t = .ok (.wrreg 1#64 v) ∧ u = { s with arg0 := v, response := some .okay })
    ∨ (∃ v, decode t = .ok (.wrreg 2#64 v) ∧ u = { s with arg1 := v, response := some .okay })
    ∨ (∃ v, decode t = .ok (.wrreg 3#64 v) ∧ u = { s with arg2 := v, response := some .okay })
    ∨ (∃ a v, decode t = .ok (.wrtxt a v) ∧ u = { s with txt := u.txt, response := some .okay })
    ∨ (t.space = 0#3 ∧ t.we = true ∧ t.addr = 0#64 ∧
        ((∃ c, u = s.endCommand c) ∨
         (decode t = .ok .alloc ∧ execAlloc s = .next u ∧ u.errcode = .ok)
         ∨ (decode t = .ok .init ∧ execInit s = .next u ∧ u.errcode = .ok)
         ∨ (decode t = .ok .insert ∧ execInsert s = .next u ∧ u.errcode = .ok)
         ∨ (decode t = .ok .search ∧ execSearch s = .next u ∧ u.errcode = .ok)
         ∨ (decode t = .ok .release ∧ execRelease s = .next u ∧ u.errcode = .ok))) := by
  unfold execTransaction at e
  have rd : ∀ {v : Option Word},
      (Host.Outcome.next (s.answerRead v) : Host.Outcome State Fault Refusal) = .next u → ∃ r,
      u = { s with response := some r } := by
    intro v h; cases h; exact ⟨_, State.answerRead_eq _ _⟩
  rcases decode_cases t with ⟨hs, hd⟩ | ⟨hs, hw, hd⟩ | ⟨hs, hw, hd⟩ | ⟨hs, hw, hd⟩ | ⟨hs, hw, hd⟩ | ⟨hs, hw,
      hd⟩ | ⟨hs, hw, hd⟩ | ⟨hs, hd⟩ <;> rw [hd] at e ⊢
  · rcases decodeReg_cases t.we t.addr t.wdata with ⟨hw, e'⟩ | ⟨hw, ha, c, hc, e'⟩ | ⟨hw, ha, hn, e'⟩ | ⟨hw,
      ha, e'⟩ <;> rw [e'] at e ⊢
    · exact .inl (rd e)
    · refine .inr (.inr (.inr (.inr (.inr ⟨hs, hw, ha, ?_⟩))))
      cases c
      · change execAlloc s = _ at e
        have e0 := e
        rcases execAlloc_cases s with ⟨_, h1⟩ | ⟨_, _, h1⟩ | ⟨_, _, _, h1⟩ | ⟨hp, hl, hle, h1⟩ <;>
            rw [h1] at e <;> cases e
        · exact .inl ⟨_, rfl⟩
        · exact .inl ⟨_, rfl⟩
        · exact .inl ⟨_, rfl⟩
        · exact .inr (.inl ⟨rfl, e0, rfl⟩)
      · change execInit s = _ at e
        have e0 := e
        rcases execInit_cases s with ⟨_, h1⟩ | ⟨hp, h1⟩ <;> rw [h1] at e <;> cases e
        · exact .inl ⟨_, rfl⟩
        · exact .inr (.inr (.inl ⟨rfl, e0, rfl⟩))
      · change execInsert s = _ at e
        have e0 := e
        rcases execInsert_cases s with ⟨_, h1⟩ | ⟨_, _, h1⟩ | ⟨hp, hl, h1⟩ <;> rw [h1] at e <;> cases e
        · exact .inl ⟨_, rfl⟩
        · exact .inl ⟨_, rfl⟩
        · exact .inr (.inr (.inr (.inl ⟨rfl, e0, rfl⟩)))
      · change execSearch s = _ at e
        have e0 := e
        rcases execSearch_cases s with ⟨_, h1⟩ | ⟨_, _, h1⟩ | ⟨hp, hl, hb, h1⟩ <;> rw [h1] at e <;> cases e
        · exact .inl ⟨_, rfl⟩
        · exact .inl ⟨_, rfl⟩
        · exact .inr (.inr (.inr (.inr (.inl ⟨rfl, e0, rfl⟩))))
      · change execRelease s = _ at e
        have e0 := e
        rcases execRelease_cases s with ⟨_, h1⟩ | ⟨hp, h1⟩ <;> rw [h1] at e <;> cases e
        · exact .inl ⟨_, rfl⟩
        · exact .inr (.inr (.inr (.inr (.inr ⟨rfl, e0, rfl⟩))))
    · refine .inr (.inr (.inr (.inr (.inr ⟨hs, hw, ha, ?_⟩))))
      change execWrreg _ _ _ = _ at e
      rw [execWrreg, if_pos ha, execCommandWord_illegal hn] at e
      cases e
      exact .inl ⟨_, rfl⟩
    · change execWrreg _ _ _ = _ at e
      rw [execWrreg, if_neg ha] at e
      rcases State.writeRegister_cases t.addr t.wdata s with ⟨h, e1⟩ | ⟨h, e1⟩ | ⟨h, e1⟩ | ⟨h, e1⟩ <;>
          rw [e1] at e <;> cases e
      · have : t.addr = 1#64 := BitVec.eq_of_toNat_eq h
        exact .inr (.inl ⟨_, by rw [this], rfl⟩)
      · have : t.addr = 2#64 := BitVec.eq_of_toNat_eq h
        exact .inr (.inr (.inl ⟨_, by rw [this], rfl⟩))
      · have : t.addr = 3#64 := BitVec.eq_of_toNat_eq h
        exact .inr (.inr (.inr (.inl ⟨_, by rw [this], rfl⟩)))
      · exact .inl ⟨_, rfl⟩
  · change execWrtxt _ _ _ = _ at e
    unfold execWrtxt at e
    split_ifs at e <;> cases e
    · exact .inr (.inr (.inr (.inr (.inl ⟨_, _, rfl, rfl⟩))))
    · exact .inl ⟨_, rfl⟩
  · exact .inl (rd e)
  · exact .inl (rd e)
  · exact .inl (rd e)
  · exact .inl (rd e)
  · cases e; exact .inl ⟨_, rfl⟩
  · cases e; exact .inl ⟨_, rfl⟩

end Sys2Proof.Machine
end

