-- ==== Sys2Proof/Laws/Hash.lean ====
section
/-! SUPPORT. The rolling hash as rotations and xors. -/

namespace Sys2Proof.Machine

/-- `ror1` is the rotation right by one bit (spec/00_scope.md R18). -/
theorem ror1_eq_rotateRight (a : Word) : ror1 a = a.rotateRight 1 := by
  simp [ror1, BitVec.rotateRight, BitVec.rotateRightAux]

/-- A rotation by bits. -/
theorem getLsbD_rotateRight_mod (a : Word) (r i : Nat) (hi : i < 64) : (a.rotateRight r).getLsbD i =
    a.getLsbD ((i + r) % 64) := by
  rw [BitVec.getLsbD_rotateRight]
  have hr : r % 64 < 64 := Nat.mod_lt _ (by decide)
  by_cases h : i < 64 - r % 64
  · simp only [h, decide_true, cond_true]
    congr 1
    omega
  · simp only [h, decide_false, cond_false, hi, decide_true, Bool.true_and]
    congr 1
    omega

theorem rotateRight_xor (a b : Word) (r : Nat) : (a ^^^ b).rotateRight r =
    a.rotateRight r ^^^ b.rotateRight r := by
  apply BitVec.eq_of_getLsbD_eq
  intro i hi
  rw [getLsbD_rotateRight_mod _ _ _ hi, BitVec.getLsbD_xor, BitVec.getLsbD_xor,
      getLsbD_rotateRight_mod _ _ _ hi, getLsbD_rotateRight_mod _ _ _ hi]

theorem rotateRight_rotateRight (a : Word) (r q : Nat) : (a.rotateRight r).rotateRight q =
    a.rotateRight (r + q) := by
  apply BitVec.eq_of_getLsbD_eq
  intro i hi
  rw [getLsbD_rotateRight_mod _ _ _ hi, getLsbD_rotateRight_mod _ _ _ (Nat.mod_lt _ (by decide)),
      getLsbD_rotateRight_mod _ _ _ hi]
  congr 1
  omega

theorem rotateRight_zero (a : Word) : a.rotateRight 0 = a := by
  apply BitVec.eq_of_getLsbD_eq
  intro i hi
  rw [getLsbD_rotateRight_mod _ _ _ hi]
  congr 1
  omega
theorem rotateRight_add_64 (a : Word) (r : Nat) : a.rotateRight (r + 64) = a.rotateRight r := by
  apply BitVec.eq_of_getLsbD_eq
  intro i hi
  rw [getLsbD_rotateRight_mod _ _ _ hi, getLsbD_rotateRight_mod _ _ _ hi]
  congr 1
  omega

/-- Rolling on from any hash: the hash rotated once a byte, and the hash of the bytes. -/
theorem foldl_roll (t : Vector Word 256) (w : List Byte) (h : Word) :
    w.foldl (roll t) h = h.rotateRight w.length ^^^ wordHash t w := by
  induction w using List.reverseRecOn with
  | nil => simp [rotateRight_zero]
  | append_singleton w b ih =>
    rw [List.foldl_append, wordHash_append_singleton, ih]
    simp only [List.foldl_cons, List.foldl_nil, roll, ror1_eq_rotateRight, rotateRight_xor,
        rotateRight_rotateRight, List.length_append, List.length_singleton]
    rw [BitVec.xor_assoc]

/-- The hash of a concatenation. -/
theorem wordHash_append (t : Vector Word 256) (u w : List Byte) :
    wordHash t (u ++ w) = (wordHash t u).rotateRight w.length ^^^ wordHash t w := by
  rw [wordHash, List.foldl_append, foldl_roll]; rfl

end Sys2Proof.Machine
end

