-- ==== Sys2Proof/Laws/Index.lean ====
section
/-! SUPPORT. The arithmetic of a legal index: its capacity, its mask and the slots a mask selects. -/

namespace Sys2Proof.Machine

/-- A live index is a power of two that fits, with its mask. -/
theorem index_ready {s : State} (h : s.IndexLegal) (hp : s.phase ≠ .empty) :
    ∃ k, 6 ≤ k ∧ k ≤ s.params.capLog2Max ∧ s.capbits.toNat = 2 ^ k ∧ s.mask = s.capbits - 1#64 := by
  unfold State.IndexLegal at h
  cases hph : s.phase <;> simp_all

/-- The mask as a number. -/
theorem mask_toNat {s : State} (h : s.IndexLegal) (hp : s.phase ≠ .empty) :
    ∃ k, 6 ≤ k ∧ k ≤ s.params.capLog2Max ∧ s.capbits.toNat = 2 ^ k ∧ s.mask.toNat = 2 ^ k - 1 := by
  obtain ⟨k, h6, hk, hc, hm⟩ := index_ready h hp
  refine ⟨k, h6, hk, hc, ?_⟩
  rw [hm, BitVec.toNat_sub, hc]
  have h1 : 2 ^ k < 2 ^ 64 := by rw [← hc]; exact s.capbits.isLt
  have h2 : 0 < 2 ^ k := by positivity
  simp
  omega

/-- Masking is the remainder by the capacity. -/
theorem and_mask {s : State} (h : s.IndexLegal) (hp : s.phase ≠ .empty) (x : Word) :
    (x &&& s.mask).toNat = x.toNat % s.capbits.toNat := by
  obtain ⟨k, h6, hk, hc, hm⟩ := mask_toNat h hp
  rw [BitVec.toNat_and, hm, hc, Nat.and_two_pow_sub_one_eq_mod]

/-- A capacity is a multiple of 64. -/
theorem capbits_mul {s : State} (h : s.IndexLegal) (hp : s.phase ≠ .empty) :
    ∃ d, 0 < d ∧ s.capbits.toNat = 64 * d := by
  obtain ⟨k, h6, hk, hc, hm⟩ := mask_toNat h hp
  obtain ⟨j, rfl⟩ := Nat.exists_eq_add_of_le h6
  exact ⟨2 ^ j, by positivity, by rw [hc, Nat.pow_add]⟩

/-- A masked slot lies in a word of the index (spec/20_memory.md R77). -/
theorem slot_inside {s : State} (h : s.IndexLegal) (hp : s.phase ≠ .empty) (x : Word) :
    slotWord (x &&& s.mask) < s.capbits.toNat / 64 := by
  rw [slotWord_eq, and_mask h hp]
  obtain ⟨d, hd, hc⟩ := capbits_mul h hp
  rw [hc]
  have := Nat.mod_lt x.toNat (show 0 < 64 * d by omega)
  omega

/-- The index lies inside the physical storage. -/
theorem capwords_le {s : State} (h : s.IndexLegal) (hp : s.phase ≠ .empty) :
    s.capbits.toNat / 64 ≤ 2 ^ (s.params.capLog2Max - 6) := by
  obtain ⟨k, h6, hk, hc, hm⟩ := mask_toNat h hp
  obtain ⟨j, rfl⟩ := Nat.exists_eq_add_of_le h6
  rw [hc, Nat.pow_add, show 2 ^ 6 = 64 from rfl, Nat.mul_div_cancel_left _ (by decide)]
  exact Nat.pow_le_pow_right (by decide) (by omega)

/-- The terminator slot is the slot after the prefix slot, wrapped (spec/20_memory.md R77). -/
theorem terminatorSlot_eq (m h : Word) (k : Nat) (hk : m.toNat = 2 ^ k - 1) (hk2 : k ≤ 63) :
    terminatorSlot m h = ((h &&& m) + 1#64) &&& m := by
  unfold terminatorSlot
  apply BitVec.eq_of_toNat_eq
  simp only [BitVec.toNat_and, BitVec.toNat_add, hk, Nat.and_two_pow_sub_one_eq_mod]
  have hd : 2 ^ k ∣ 2 ^ 64 := Nat.pow_dvd_pow _ (by omega)
  rw [Nat.mod_mod_of_dvd _ hd, Nat.mod_mod_of_dvd _ hd]
  simp

end Sys2Proof.Machine
end

