-- ==== Sys2Proof/Laws/PerInstr.lean ====
section
/-! SUPPORT. Facts about every instruction as syntax, one lemma per constructor. The family `EncodedHeader`: an
instruction's transaction carries the header of its row, `{we, space}` of spec/30_encoding.md R110; a command is a
register write. -/

namespace Sys2Proof.Laws.EncodedHeader

/-- The header of an instruction's row in spec/opcode_table.json. -/
def header : Instr → BitVec 4
  | .alloc => 0x8#4
  | .init => 0x8#4
  | .insert => 0x8#4
  | .search => 0x8#4
  | .release => 0x8#4
  | .rdreg _ => 0x0#4
  | .wrreg _ _ => 0x8#4
  | .rdtxt _ => 0x1#4
  | .wrtxt _ _ => 0x9#4
  | .rdres _ => 0x2#4
  | .rdbits _ => 0x3#4
  | .rdtab _ => 0x4#4

def Statement (i : Instr) : Prop := (encode i).header = header i

theorem alloc : Statement .alloc := by unfold Statement; decide
theorem init : Statement .init := by unfold Statement; decide
theorem insert : Statement .insert := by unfold Statement; decide
theorem search : Statement .search := by unfold Statement; decide
theorem release : Statement .release := by unfold Statement; decide
theorem rdreg (addr : Word) : Statement (.rdreg addr) :=
  show BitVec.ofBool false ++ 0#3 = 0x0#4 by decide
theorem wrreg (addr wdata : Word) : Statement (.wrreg addr wdata) :=
  show BitVec.ofBool true ++ 0#3 = 0x8#4 by decide
theorem rdtxt (addr : Word) : Statement (.rdtxt addr) :=
  show BitVec.ofBool false ++ 1#3 = 0x1#4 by decide
theorem wrtxt (addr wdata : Word) : Statement (.wrtxt addr wdata) :=
  show BitVec.ofBool true ++ 1#3 = 0x9#4 by decide
theorem rdres (addr : Word) : Statement (.rdres addr) :=
  show BitVec.ofBool false ++ 2#3 = 0x2#4 by decide
theorem rdbits (addr : Word) : Statement (.rdbits addr) :=
  show BitVec.ofBool false ++ 3#3 = 0x3#4 by decide
theorem rdtab (addr : Word) : Statement (.rdtab addr) :=
  show BitVec.ofBool false ++ 4#3 = 0x4#4 by decide

end Sys2Proof.Laws.EncodedHeader
end

