-- ==== Sys2Proof/Tests/Slice0.lean ====
section
/-! SUPPORT. The model's own tests. Expected values are from spec/95_test_vectors.md (named by their vector) or from
the encodings of spec/30_encoding.md; every test is one step, one function or one decoding. The witnesses at the end
show, for every statement of Certificates/Slice0/Obligations.lean that has hypotheses, a state and operands that
meet them. -/

namespace Sys2Proof.Tests

open Sys2Proof Sys2Proof.Machine

/-! ### Well-formedness: the one check, at both ends of its range -/

theorem test_wf_refuses_alloc_as_wrreg : Instr.wf (.wrreg 0#64 1#64) = false := by decide
theorem test_wf_refuses_release_as_wrreg : Instr.wf (.wrreg 0#64 5#64) = false := by decide
theorem test_wf_accepts_illegal_words_and_other_registers :
    Instr.wf (.wrreg 0#64 0#64) = true ∧ Instr.wf (.wrreg 0#64 6#64) = true
      ∧ Instr.wf (.wrreg 1#64 1#64) = true := by decide

/-! ### Decoding: words written out from R102 and headers `{we, space}` from R110, one per row of the table -/

theorem test_decode_command_words :
    decodeTableWord 64 0b0000000000000000000000000000000000000000000000000000000000000001 = some .alloc
      ∧ decodeTableWord 64 0b0000000000000000000000000000000000000000000000000000000000000010 = some .init
      ∧ decodeTableWord 64 0b0000000000000000000000000000000000000000000000000000000000000011 = some .insert
      ∧ decodeTableWord 64 0b0000000000000000000000000000000000000000000000000000000000000100 = some .search
      ∧ decodeTableWord 64 0b0000000000000000000000000000000000000000000000000000000000000101 = some .release := by
  decide

theorem test_decode_headers :
    decodeTableWord 8 0b0000 = some (.rdreg 0#64) ∧ decodeTableWord 8 0b1000 = some (.wrreg 0#64 0#64)
      ∧ decodeTableWord 8 0b0001 = some (.rdtxt 0#64) ∧ decodeTableWord 8 0b1001 = some (.wrtxt 0#64 0#64)
      ∧ decodeTableWord 8 0b0010 = some (.rdres 0#64) ∧ decodeTableWord 8 0b0011 = some (.rdbits 0#64)
      ∧ decodeTableWord 8 0b0100 = some (.rdtab 0#64) := by decide

/-- The headers that have no row (R110). -/
theorem test_decode_rejects_every_other_header :
    decodeTableWord 8 0b1010 = none ∧ decodeTableWord 8 0b1011 = none ∧ decodeTableWord 8 0b1100 = none
      ∧ decodeTableWord 8 0b0101 = none ∧ decodeTableWord 8 0b0110 = none ∧ decodeTableWord 8 0b0111 = none
      ∧ decodeTableWord 8 0b1101 = none ∧ decodeTableWord 8 0b1110 = none ∧ decodeTableWord 8 0b1111 = none := by
  decide

/-- Transactions of program P1 of spec/95_test_vectors.md. -/
theorem test_decode_p1_transactions :
    decode ⟨true, 0#3, 1#64, 0x7CD#64⟩ = .ok (.wrreg 1#64 0x7CD#64)
      ∧ decode ⟨true, 1#3, 16#64, 0x77#64⟩ = .ok (.wrtxt 16#64 0x77#64)
      ∧ decode ⟨false, 2#3, 4#64, 0#64⟩ = .ok (.rdres 4#64)
      ∧ decode ⟨true, 0#3, 0#64, 0x05#64⟩ = .ok .release := by decide

/-- V-DEC-1 to V-DEC-6. -/
theorem test_decode_illegal_command_words :
    decodeCommand 0x0000000000000000#64 = none ∧ decodeCommand 0x0000000000000006#64 = none
      ∧ decodeCommand 0x00000000000000FF#64 = none ∧ decodeCommand 0x0000000000000101#64 = none
      ∧ decodeCommand 0x8000000000000002#64 = none ∧ decodeCommand 0x0000000000000007#64 = none := by decide

theorem test_encode_writes_the_tuples :
    encode .search = ⟨true, 0#3, 0#64, 0x04#64⟩
      ∧ encode (.rdbits 13#64) = ⟨false, 3#3, 13#64, 0#64⟩
      ∧ encode (.wrtxt 0#64 0x68#64) = ⟨true, 1#3, 0#64, 0x68#64⟩ := by decide

/-! ### The states of the tests -/

/-- The test table of spec/95_test_vectors.md part 2. -/
def TT : Vector Word 256 :=
  ⟨⟨(List.range 256).map fun b => BitVec.ofNat 64 ((b + 1) * 0x9E3779B97F4A7C15)⟩, by simp⟩

/-- A text buffer that holds `bytes` from address 0. -/
def textOf (bytes : List Nat) : Memory :=
  bytes.zipIdx.map (fun e => (e.2, BitVec.ofNat 8 e.1))

/-- Test parameters, table `TT`, an index of `c` slots with the listed nonzero words, a text from address 0, and
the operands. -/
def readyAt (c : Word) (bits : Cells Word) (text : List Nat) (a0 a1 a2 : Word) : State :=
  { State.reset with
    phase := .ready, capbits := c, mask := c - 1#64, table := TT, bits := bits, txt := textOf text,
    arg0 := a0, arg1 := a1, arg2 := a2 }

/-- An index of `c` slots just allocated, and ARG0. -/
def allocatedAt (c a0 : Word) : State :=
  { State.reset with phase := .allocated, capbits := c, mask := c - 1#64, arg0 := a0 }

/-- Reset with ARG0 set. -/
def resetWith (a0 : Word) : State := { State.reset with arg0 := a0 }

/-- V-INS-10: "a", "ab", "abc" inserted. -/
def indexB : Cells Word := [(0, 0x000000000C000C00#64), (8, 0x0600000000000000#64)]

/-- The next state, where there is one. -/
def next? : Host.Outcome State Fault Refusal → Option State
  | .next t => some t
  | _ => none

/-- What a step answered on the port. -/
def answerOf (o : Host.Outcome State Fault Refusal) : Option Response :=
  (next? o).bind State.response

/-- ERRCODE, PHASE, CAPBITS and MASK after a step. -/
def indexOf (o : Host.Outcome State Fault Refusal) : Option (ErrCode × Phase × Word × Word) :=
  (next? o).map fun t => (t.errcode, t.phase, t.capbits, t.mask)

/-! ### The pure functions -/

/-- V-ROR-2, V-ROR-5, V-ROR-9. -/
theorem test_ror1 :
    ror1 0x0000000000000001#64 = 0x8000000000000000#64 ∧ ror1 0x8000000000000000#64 = 0x4000000000000000#64
      ∧ ror1 0x0123456789ABCDEF#64 = 0x8091A2B3C4D5E6F7#64 := by decide

/-- V-ROLL-3, V-ROLL-4. -/
theorem test_roll :
    roll TT 0x913C9902BA83800A#64 0x62#8 = 0x67EA5E3D648C3C1A#64
      ∧ roll TT 0xFFFFFFFFFFFFFFFF#64 0xFF#8 = 0xC8864680B583EAFF#64 := by decide +kernel

/-- V-H-1, V-H-5, V-H-7, V-H-9. -/
theorem test_word_hash :
    wordHash TT [] = 0#64 ∧ wordHash TT [0x62#8, 0x61#8] = 0x0686905CA6657E05#64
      ∧ wordHash TT [0x61#8, 0x62#8, 0x63#8] = 0xFE5EA36B0B5E6639#64
      ∧ wordHash TT [0#8, 0#8] = 0x512CC565C0EF421F#64 := by decide +kernel

/-- V-XS-5, V-XS-6, V-XS-7. -/
theorem test_xs128p :
    xs128p 0xFFFFFFFFFFFFFFFF#64 0xFFFFFFFFFFFFFFFF#64 = (0xFFFFFFFFFFFFFFFF#64, 0xFFFFFFC0007FFFC0#64)
      ∧ xs128p 0x8000000000000000#64 0#64 = (0#64, 0x8000400000000000#64)
      ∧ xs128p 0x7CD#64 0xDEADBEEF#64 = (0xDEADBEEF#64, 0x00000003382C4A55#64) := by decide

/-! ### The commands -/

/-- Reset with words left in the bit array, and V-ALLOC-9's capacity in ARG0. -/
def staleBits : State := { resetWith 0x80#64 with bits := [(0, 7#64), (1, 9#64), (2, 5#64)] }

/-- V-ALLOC-9: the words of the index are zeroed, a word past it is not; all else of the index is as stated. -/
theorem test_alloc_opens_a_zeroed_index :
    indexOf (exec .alloc staleBits) = some (.ok, .allocated, 0x80#64, 0x7F#64)
      ∧ (next? (exec .alloc staleBits)).map State.bits = some [(2, 5#64)] := by decide +kernel

/-- V-ALLOC-3, V-ALLOC-5, V-ALLOC-10, V-ALLOC-12. -/
theorem test_alloc_failures :
    indexOf (exec .alloc (resetWith 0x20#64)) = some (.configError, .empty, 0#64, 0#64)
      ∧ indexOf (exec .alloc (resetWith 0xFFFFFFFFFFFFFFFF#64)) = some (.configError, .empty, 0#64, 0#64)
      ∧ indexOf (exec .alloc (resetWith 0x200000#64)) = some (.allocationError, .empty, 0#64, 0#64)
      ∧ indexOf (exec .alloc (allocatedAt 0x40#64 0x80#64)) = some (.invalidState, .allocated, 0x40#64, 0x3F#64) := by
  decide +kernel

/-- V-INIT-1 with V-GEN-1: the table of seed 1997, and the generator's last state. -/
theorem test_init_fills_the_table :
    (next? (exec .init (allocatedAt 0x400#64 1997#64))).map (fun t => (t.errcode, t.phase,
        t.table[0], t.table[1], t.table[0x68], t.table[254], t.table[255], t.g0, t.g1))
      = some (.ok, .ready, 0xDBCB0A4DBD73C4F6#64, 0x7A537D26380831EB#64, 0x2CEE5C9B1323A4E2#64,
          0xBA34B6207A7146FF#64, 0x0BC3B3AF083472B8#64, 0x23593764A9D13E33#64, 0xE86A7C4A5E633485#64) := by
  decide +kernel

/-- V-INIT-2, V-INIT-3. -/
theorem test_init_only_in_allocated :
    indexOf (exec .init (resetWith 1997#64)) = some (.invalidState, .empty, 0#64, 0#64)
      ∧ (next? (exec .init (readyAt 0x40#64 [] [] 5#64 0#64 0#64))).map (fun t => (t.errcode, t.table[0]))
        = some (.invalidState, 0x9E3779B97F4A7C15#64) := by decide +kernel

/-- V-INS-4: "abc". -/
theorem test_insert_sets_the_slots :
    (next? (exec .insert (readyAt 0x400#64 [] [0x61, 0x62, 0x63] 0#64 3#64 0#64))).map
        (fun t => (t.errcode, t.retHash, t.bits))
      = some (.ok, 0xFE5EA36B0B5E6639#64, [(0, 0x0000000004000400#64), (8, 0x0600000000000000#64)]) := by
  decide +kernel

/-- V-INS-6: "bo", whose terminator wraps to slot 0; V-INS-16: a range that does not wrap. -/
theorem test_insert_wraps_the_terminator_only :
    (next? (exec .insert (readyAt 0x40#64 [] [0x62, 0x6F] 0#64 2#64 0#64))).map (fun t => (t.retHash, t.bits))
        = some (0xAFFF4879AC70B73F#64, [(0, 0x8000000080000001#64)])
      ∧ (next? (exec .insert (readyAt 0x40#64 [] [0x62] 0xFFFFFFFFFFFFFFFF#64 2#64 0#64))).map
          (fun t => (t.errcode, t.bits)) = some (.operandError, []) := by decide +kernel

/-- V-SRCH-5: five records, by start, then by length. -/
theorem test_search_orders_its_records :
    (next? (exec .search (readyAt 0x400#64 indexB [0x7A, 0x61, 0x62, 0x63, 0x61, 0x62] 0#64 6#64 64#64))).map
        (fun t => (t.errcode, t.rcount, t.records))
      = some (.ok, 5#64, [⟨1#64, 1#64, 0x913C9902BA83800A#64⟩, ⟨1#64, 2#64, 0x67EA5E3D648C3C1A#64⟩,
          ⟨1#64, 3#64, 0xFE5EA36B0B5E6639#64⟩, ⟨4#64, 1#64, 0x913C9902BA83800A#64⟩,
          ⟨4#64, 2#64, 0x67EA5E3D648C3C1A#64⟩]) := by decide +kernel

/-- V-SRCH-4: exactly `maxResults` records; V-SRCH-12: a bound above RES_ENTRIES. -/
theorem test_search_stops_at_the_bound :
    (next? (exec .search (readyAt 0x400#64 indexB [0x61, 0x62, 0x63] 0#64 3#64 2#64))).map
        (fun t => (t.errcode, t.rcount, t.records))
        = some (.ok, 2#64, [⟨0#64, 1#64, 0x913C9902BA83800A#64⟩, ⟨0#64, 2#64, 0x67EA5E3D648C3C1A#64⟩])
      ∧ (next? (exec .search (readyAt 0x400#64 indexB [0x61] 0#64 0#64 65#64))).map
          (fun t => (t.errcode, t.rcount)) = some (.operandError, 0#64) := by decide +kernel

/-- V-REL-1, V-REL-2, V-REL-3. -/
theorem test_release :
    indexOf (exec .release (readyAt 0x400#64 indexB [] 0#64 0#64 0#64)) = some (.ok, .empty, 0#64, 0#64)
      ∧ indexOf (exec .release (allocatedAt 0x40#64 0#64)) = some (.ok, .empty, 0#64, 0#64)
      ∧ indexOf (exec .release State.reset) = some (.invalidState, .empty, 0#64, 0#64) := by decide +kernel

/-! ### The port -/

/-- V-PORT-18, V-PORT-3, V-PORT-2. -/
theorem test_rdreg :
    answerOf (exec (.rdreg 10#64) State.reset) = some (.okayData 0x100000#64)
      ∧ answerOf (exec (.rdreg 11#64) State.reset) = some (.okayData 0x1000#64)
      ∧ answerOf (exec (.rdreg 12#64) State.reset) = some (.okayData 0x40#64)
      ∧ answerOf (exec (.rdreg 13#64) State.reset) = some (.okayData 0x00000000DEADBEEF#64)
      ∧ answerOf (exec (.rdreg 0#64) State.reset) = some .fault
      ∧ answerOf (exec (.rdreg 14#64) State.reset) = some .fault
      ∧ answerOf (exec (.rdreg 0xFFFFFFFFFFFFFFFF#64) State.reset) = some .fault := by decide +kernel

/-- V-PORT-17. -/
theorem test_wrreg_writes_the_arguments :
    (next? (exec (.wrreg 2#64 77#64) State.reset)).map (fun t => (t.arg0, t.arg1, t.arg2, t.response))
      = some (0#64, 77#64, 0#64, some .okay) := by decide +kernel

/-- V-PORT-4, and V-DEC-7 (decode before phase). -/
theorem test_wrreg_faults_and_illegal_command :
    answerOf (exec (.wrreg 4#64 0#64) State.reset) = some .fault
      ∧ answerOf (exec (.wrreg 13#64 1#64) State.reset) = some .fault
      ∧ (next? (exec (.wrreg 0#64 6#64) State.reset)).map (fun t => (t.errcode, t.response))
        = some (.illegalCommand, some .okay) := by decide +kernel

/-- V-PORT-7, V-PORT-5. -/
theorem test_wrtxt :
    (next? (exec (.wrtxt 7#64 0xFFFFFFFFFFFFFF41#64) State.reset)).map (fun t => (t.txt, t.response))
        = some ([(7, 0x41#8)], some .okay)
      ∧ answerOf (exec (.wrtxt 4096#64 0x41#64) State.reset) = some .fault := by decide +kernel

/-- V-PORT-6, V-PORT-5. -/
theorem test_rdtxt :
    answerOf (exec (.rdtxt 4095#64) { State.reset with txt := [(4095, 0x41#8)] }) = some (.okayData 0x41#64)
      ∧ answerOf (exec (.rdtxt 4096#64) State.reset) = some .fault := by decide +kernel

/-- One record, as in V-SRCH-20. -/
def oneRecord : State :=
  { State.reset with rcount := 1#64, res := [(0, ⟨5#64, 6#64, 0x278E70D48F34299B#64⟩)] }

/-- V-SRCH-20, V-PORT-9 to V-PORT-11. -/
theorem test_rdres :
    answerOf (exec (.rdres 0#64) oneRecord) = some (.okayData 5#64)
      ∧ answerOf (exec (.rdres 1#64) oneRecord) = some (.okayData 6#64)
      ∧ answerOf (exec (.rdres 2#64) oneRecord) = some (.okayData 0x278E70D48F34299B#64)
      ∧ answerOf (exec (.rdres 3#64) oneRecord) = some (.okayData 0#64)
      ∧ answerOf (exec (.rdres 4#64) oneRecord) = some .fault
      ∧ answerOf (exec (.rdres 0#64) State.reset) = some .fault := by decide +kernel

/-- V-PORT-12 to V-PORT-14, and a word of V-INS-10. -/
theorem test_rdbits :
    answerOf (exec (.rdbits 0#64) State.reset) = some .fault
      ∧ answerOf (exec (.rdbits 1#64) (allocatedAt 64#64 0#64)) = some .fault
      ∧ answerOf (exec (.rdbits 0#64) (allocatedAt 64#64 0#64)) = some (.okayData 0#64)
      ∧ answerOf (exec (.rdbits 8#64) (readyAt 0x400#64 indexB [] 0#64 0#64 0#64))
        = some (.okayData 0x0600000000000000#64) := by decide +kernel

/-- V-INIT-4, V-INIT-5 (entries of TT), V-PORT-16. -/
theorem test_rdtab :
    answerOf (exec (.rdtab 0#64) (allocatedAt 64#64 0#64)) = some .fault
      ∧ answerOf (exec (.rdtab 255#64) (readyAt 64#64 [] [] 0#64 0#64 0#64))
        = some (.okayData 0x3779B97F4A7C1500#64)
      ∧ answerOf (exec (.rdtab 256#64) (readyAt 64#64 [] [] 0#64 0#64 0#64)) = some .fault := by decide +kernel

/-! ### Steps -/

/-- The host presents a table row next, and the step runs it. -/
theorem test_fetch_word_runs_next :
    (next? (step (State.withFetchWord (resetWith 0x40#64) 64 1))).map
        (fun t => (t.errcode, t.phase, t.capbits, t.pending))
        = some (.ok, .allocated, 0x40#64, [])
      ∧ answerOf (step (State.withFetchWord State.reset 8 0x8)) = some .okay
      ∧ answerOf (step (State.withFetchWord State.reset 8 0xA)) = some .fault := by decide +kernel

/-- READY with three records, and a reset to come. -/
def beforeReset : State :=
  { readyAt 0x400#64 indexB [0x61] 1#64 2#64 3#64 with rcount := 3#64, pending := [.reset] }

/-- V-RST-2. -/
theorem test_reset_event :
    (next? (step beforeReset)).map (fun t => (t.arg0, t.phase, t.rcount, t.capbits, t.mask))
        = some (0#64, .empty, 0#64, 0#64, 0#64)
      ∧ (next? (step beforeReset)).map (fun t => (t.txt.length, t.pending)) = some (0, []) := by decide +kernel

/-- No event: the block idles. -/
theorem test_idle_step : step State.reset = .next State.reset := rfl

/-! ### Memory -/

theorem test_reset_memory_canonical :
    Memory.wf State.reset.txt ∧ Cells.wfBits State.reset.bits ∧ Cells.Rising State.reset.res := by decide

/-- Writing the value an unlisted word reads as removes the entry. -/
theorem test_zero_word_is_not_listed :
    Cells.writeBits 3 0#64 [(1, 5#64), (3, 7#64), (9, 2#64)] = [(1, 5#64), (9, 2#64)]
      ∧ Cells.writeBits 2 4#64 [(1, 5#64), (3, 7#64)] = [(1, 5#64), (2, 4#64), (3, 7#64)] := by decide

/-! ### Witnesses: the hypotheses of each statement, met by concrete states and operands, one clause after another -/

/-- READY, one word of index, text "a", word and text of length 1, bound 1. -/
def ready : State := readyAt 0x40#64 [] [0x61] 0#64 1#64 1#64

/-- READY with a whole-buffer operand range. -/
def readyWhole : State := readyAt 0x40#64 [(0, 2#64)] [0x61] 0#64 4096#64 64#64

/-- READY with the empty word at the buffer's end. -/
def readyEnd : State := readyAt 0x40#64 [] [] 4096#64 0#64 1#64

/-- The index and the bound of `ready`; the same byte stands at address 2, and an earlier SEARCH left a record. -/
def readyMoved : State :=
  { readyAt 0x40#64 [] [0x61, 0x62, 0x61] 2#64 1#64 1#64 with rcount := 1#64, res := [(0, ⟨0#64, 1#64, 0#64⟩)] }

/-- A state that has yet to accept one transaction. -/
def waiting (s : State) (t : Transaction) : State := { s with pending := [.transaction t] }

theorem witness_DecodeOfEncodeIsIdentity :
    Instr.wf (.wrreg 0#64 6#64) = true ∧ Instr.wf (.wrreg 0xFFFFFFFFFFFFFFFF#64 1#64) = true
      ∧ Instr.wf .release = true := by decide

theorem witness_DecodedTermIsItsTransaction :
    decode ⟨false, 0#3, 1#64, 9#64⟩ = .ok (.rdreg 1#64) ∧ decode ⟨true, 0#3, 0#64, 5#64⟩ = .ok .release
      ∧ decode ⟨true, 1#3, 0#64, 9#64⟩ = .ok (.wrtxt 0#64 9#64) := by decide

/-- Each reason for an illegal word, at its boundary; the first and the last command. -/
theorem witness_CommandWordsDecodeAsListed :
    (0x101#64).extractLsb' 8 56 ≠ 0#56 ∧ ((0#64).extractLsb' 0 8).toNat = 0 ∧ 6 ≤ ((6#64).extractLsb' 0 8).toNat
      ∧ ((1#64).extractLsb' 8 56 = 0#56 ∧ 1 ≤ ((1#64).extractLsb' 0 8).toNat ∧ ((1#64).extractLsb' 0 8).toNat ≤ 5)
      ∧ ((5#64).extractLsb' 8 56 = 0#56 ∧ 1 ≤ ((5#64).extractLsb' 0 8).toNat
          ∧ ((5#64).extractLsb' 0 8).toNat ≤ 5) := by decide

theorem witness_StepRunsTheDecodedInstruction :
    (waiting ready ⟨true, 0#3, 0#64, 3#64⟩).pending = .transaction ⟨true, 0#3, 0#64, 3#64⟩ :: []
      ∧ decode ⟨true, 0#3, 0#64, 3#64⟩ = .ok .insert := by decide

/-- Spaces 5 and 7, and writes to 2 and 4. -/
theorem witness_ReservedSpacesFault :
    (waiting ready ⟨false, 5#3, 0#64, 0#64⟩).pending = .transaction ⟨false, 5#3, 0#64, 0#64⟩ :: []
      ∧ 5 ≤ (5#3).toNat ∧ 5 ≤ (7#3).toNat
      ∧ (2 ≤ (2#3).toNat ∧ (2#3).toNat ≤ 4) ∧ (2 ≤ (4#3).toNat ∧ (4#3).toNat ≤ 4) := by decide

theorem witness_ResetSetsTheStatedValues : beforeReset.pending = .reset :: [] := rfl

theorem ready_inv : ready.Inv where
  index := ⟨6, by decide⟩
  txtCanonical := by decide
  txtInside := by decide
  bitsCanonical := by decide
  bitsInside := by decide
  resCanonical := by decide
  resInside := by decide
  resWritten := by decide
  rcountBounded := by decide

theorem witness_StepKeepsInvariant : ready.Inv ∧ step ready = .next ready := ⟨ready_inv, rfl⟩

/-- A step, and the first and the last constant register. -/
theorem witness_StepKeepsParameters :
    step ready = .next ready ∧ (10 ≤ (10#64).toNat ∧ (10#64).toNat ≤ 13) ∧ (10 ≤ (13#64).toNat ∧ (13#64).toNat ≤ 13) :=
  ⟨rfl, by decide, by decide⟩

/-- Each condition P1 to P9 at its boundary. -/
theorem witness_PortFaultsExactlyP1ToP9_faults :
    ready.PortCondition ⟨false, 5#3, 0#64, 0#64⟩ 1 ∧ ready.PortCondition ⟨true, 0#3, 14#64, 0#64⟩ 2
      ∧ ready.PortCondition ⟨false, 0#3, 0#64, 0#64⟩ 3 ∧ ready.PortCondition ⟨true, 0#3, 4#64, 0#64⟩ 4
      ∧ ready.PortCondition ⟨true, 0#3, 13#64, 0#64⟩ 4
      ∧ ready.PortCondition ⟨true, 1#3, 4096#64, 0#64⟩ 5 ∧ ready.PortCondition ⟨true, 4#3, 0#64, 0#64⟩ 6
      ∧ ready.PortCondition ⟨false, 2#3, 0#64, 0#64⟩ 7 ∧ ready.PortCondition ⟨false, 3#3, 1#64, 0#64⟩ 8
      ∧ ready.PortCondition ⟨false, 4#3, 256#64, 0#64⟩ 9 := by
  simp only [State.PortCondition]
  decide

/-- A write and reads that are answered OKAY, each just inside its range. -/
theorem witness_PortFaultsExactlyP1ToP9_okay :
    (waiting ready ⟨true, 0#3, 3#64, 0#64⟩).pending = .transaction ⟨true, 0#3, 3#64, 0#64⟩ :: []
      ∧ ¬ ready.PortFaults ⟨true, 0#3, 3#64, 0#64⟩ ∧ ¬ ready.PortFaults ⟨true, 1#3, 4095#64, 0#64⟩
      ∧ ¬ ready.PortFaults ⟨false, 0#3, 13#64, 0#64⟩ ∧ ¬ ready.PortFaults ⟨false, 3#3, 0#64, 0#64⟩
      ∧ ¬ ready.PortFaults ⟨false, 4#3, 255#64, 0#64⟩ := by
  refine ⟨rfl, ?_, ?_, ?_, ?_, ?_⟩ <;> rw [State.portFaults_iff] <;> decide

theorem witness_PortReadsChangeNothing :
    ({ ready with pending := [.transaction ⟨false, 3#3, 0#64, 0#64⟩, .transaction ⟨false, 3#3, 0#64, 0#64⟩] }
        : State).pending
      = .transaction ⟨false, 3#3, 0#64, 0#64⟩ :: .transaction ⟨false, 3#3, 0#64, 0#64⟩ :: [] := rfl

/-- A step on a transaction that is the writer of none of the state; a register other than CMD. -/
theorem witness_StateChangesOnlyByItsWriters :
    (∃ u, step (waiting ready ⟨false, 0#3, 1#64, 0#64⟩) = .next u)
      ∧ decode ⟨false, 0#3, 1#64, 0#64⟩ = .ok (.rdreg 1#64)
      ∧ (⟨false, 0#3, 1#64, 0#64⟩ : Transaction).addr ≠ 0#64 := ⟨⟨_, rfl⟩, by decide, by decide⟩

/-- A live index before and after, with a set slot. -/
theorem witness_LiveIndexOnlyGainsBits :
    step readyWhole = .next readyWhole ∧ readyWhole.phase ≠ .empty ∧ readyWhole.testBit 1#64 = true :=
  ⟨rfl, by decide, by decide⟩

theorem witness_ReadyTableIsImmutable : step ready = .next ready ∧ ready.phase = .ready := ⟨rfl, rfl⟩

/-- The first illegal command word, and register numbers at the boundaries of the faults. -/
theorem witness_RegisterSpaceAccess :
    decodeCommand 6#64 = none ∧ (0#64).toNat = 0 ∧ 14 ≤ (14#64).toNat ∧ 4 ≤ (4#64).toNat := by decide

/-- A state for each phase and each outcome. -/
theorem witness_StatusAndErrcodeNumbers :
    State.reset.phase = .empty ∧ (allocatedAt 64#64 0#64).phase = .allocated ∧ ready.phase = .ready
      ∧ (State.endCommand .ok ready).errcode = .ok ∧ (State.endCommand .configError ready).errcode = .configError
      ∧ (State.endCommand .allocationError ready).errcode = .allocationError
      ∧ (State.endCommand .invalidState ready).errcode = .invalidState
      ∧ (State.endCommand .illegalCommand ready).errcode = .illegalCommand
      ∧ (State.endCommand .operandError ready).errcode = .operandError := by decide

theorem witness_TextWindowReadsAndStores :
    (4095#64).toNat < ready.params.txtBytes ∧ ready.params.txtBytes ≤ (4096#64).toNat := by decide

/-- The four fields of the last record, and the first address past it. -/
theorem witness_ResultWindowReadsRecords :
    (0#64).toNat / 4 < oneRecord.rcount.toNat ∧ (0#64).toNat % 4 = 0 ∧ (1#64).toNat % 4 = 1 ∧ (2#64).toNat % 4 = 2
      ∧ (3#64).toNat / 4 < oneRecord.rcount.toNat ∧ (3#64).toNat % 4 = 3
      ∧ oneRecord.rcount.toNat ≤ (4#64).toNat / 4 := by decide

theorem witness_BitsWindowReadsWords :
    (allocatedAt 64#64 0#64).phase = .allocated ∧ ready.phase = .ready ∧ (0#64).toNat < ready.capbits.toNat / 64
      ∧ State.reset.phase = .empty ∧ ready.capbits.toNat / 64 ≤ (1#64).toNat := by decide

theorem witness_TableWindowReadsEntries :
    ready.phase = .ready ∧ (255#64).toNat ≤ 255 ∧ (allocatedAt 64#64 0#64).phase ≠ .ready ∧ 256 ≤ (256#64).toNat := by
  decide

/-- A command word whose execution fails. -/
theorem witness_FailedCommandChangesOnlyErrcode :
    (next? (exec (.wrreg 0#64 2#64) ready)).map State.errcode = some .invalidState := by decide +kernel

/-- ALLOC: wrong phase; illegal capacity; too large; the largest that fits. -/
theorem witness_FirstFailingCheckIsReported_alloc :
    ready.phase ≠ .empty
      ∧ ((resetWith 32#64).phase = .empty ∧ ¬ ∃ k, 6 ≤ k ∧ k ≤ 63 ∧ (resetWith 32#64).arg0.toNat = 2 ^ k)
      ∧ ((resetWith 0x200000#64).phase = .empty ∧ (resetWith 0x200000#64).arg0.toNat = 2 ^ 21
          ∧ 2 ^ (resetWith 0x200000#64).params.capLog2Max < (resetWith 0x200000#64).arg0.toNat)
      ∧ ((resetWith 0x100000#64).arg0.toNat = 2 ^ 20
          ∧ (resetWith 0x100000#64).arg0.toNat ≤ 2 ^ (resetWith 0x100000#64).params.capLog2Max) := by
  refine ⟨by decide, ⟨rfl, ?_⟩, by decide, by decide⟩
  rintro ⟨k, h6, -, h⟩
  have h64 : 2 ^ 6 ≤ 2 ^ k := Nat.pow_le_pow_right (by decide) h6
  rw [← h] at h64
  exact absurd h64 (by decide)

/-- The other commands: each phase; operands in range at both ends and just outside; bounds 0, 1, 64, 65. -/
theorem witness_FirstFailingCheckIsReported_others :
    decodeCommand 6#64 = none ∧ ready.phase ≠ .allocated ∧ (allocatedAt 64#64 0#64).phase = .allocated
      ∧ (allocatedAt 64#64 0#64).phase ≠ .ready ∧ State.reset.phase = .empty ∧ ready.phase ≠ .empty
      ∧ readyEnd.inRange readyEnd.arg0 readyEnd.arg1 = true ∧ readyEnd.inRange 4097#64 0#64 = false
      ∧ readyWhole.inRange 0#64 4096#64 = true ∧ readyWhole.inRange 0#64 4097#64 = false
      ∧ ready.legalBound 0#64 = false ∧ ready.legalBound 1#64 = true ∧ ready.legalBound 64#64 = true
      ∧ ready.legalBound 65#64 = false := by decide

/-- ALLOC that succeeds and one that fails; the phases of the other rows. -/
theorem witness_LifecycleTable :
    (next? (exec .alloc (resetWith 64#64))).map State.errcode = some .ok
      ∧ (next? (exec .alloc (resetWith 65#64))).map State.errcode = some .configError
      ∧ State.reset.phase = .empty ∧ (allocatedAt 64#64 0#64).phase = .allocated ∧ ready.phase = .ready := by
  decide +kernel

theorem witness_LegalCapacities :
    (resetWith 0xC0#64).phase = .empty ∧ legalCap (resetWith 0xC0#64).arg0 = false := by decide

/-- Too large by one power of two; the largest that fits; an illegal capacity; an index that exists. -/
theorem witness_AllocFailures :
    (resetWith 0x200000#64).phase = .empty ∧ legalCap 0x200000#64 = true
      ∧ 2 ^ State.reset.params.capLog2Max < (0x200000#64).toNat
      ∧ legalCap 0x100000#64 = true ∧ (0x100000#64).toNat ≤ 2 ^ State.reset.params.capLog2Max
      ∧ legalCap 0xFFFFFFFFFFFFFFFF#64 = false ∧ ready.phase ≠ .empty := by decide

/-- The smallest and the largest capacity; the last word of the index and the first past it. -/
theorem witness_AllocGrantsZeroedWords :
    (resetWith 64#64).phase = .empty ∧ 6 ≤ State.reset.params.capLog2Max ∧ (resetWith 64#64).arg0.toNat = 2 ^ 6
      ∧ 20 ≤ State.reset.params.capLog2Max ∧ (resetWith 0x100000#64).arg0.toNat = 2 ^ 20
      ∧ (0#64).toNat < 2 ^ 6 / 64 ∧ 2 ^ 6 / 64 ≤ (1#64).toNat := by decide

theorem witness_InitFillsTheTable : (allocatedAt 64#64 1997#64).phase = .allocated := rfl

/-- Two states that differ in the capacity and share the seed. -/
theorem witness_TableDependsOnSeedAlone :
    (allocatedAt 64#64 5#64).phase = .allocated ∧ (allocatedAt 128#64 5#64).phase = .allocated
      ∧ (allocatedAt 64#64 5#64).params.generator = (allocatedAt 128#64 5#64).params.generator
      ∧ (allocatedAt 64#64 5#64).arg0 = (allocatedAt 128#64 5#64).arg0 := by decide

theorem witness_InitOnlyOnce : State.reset.phase = .empty ∧ ready.phase = .ready := by decide

theorem witness_ReleaseClosesTheIndex : ready.phase ≠ .empty ∧ State.reset.phase = .empty := by decide

theorem witness_RollIsRotateThenXor : (0 : Nat) < 63 ∧ (62 : Nat) < 63 := by decide

theorem witness_HashClosedForm : (List.replicate 63 (0#8 : Byte)).length = 63 := by decide

theorem ready_indexLegal : ready.IndexLegal ∧ ready.phase ≠ .empty := ⟨ready_inv.index, by decide⟩

/-- A prefix slot with a successor in the index, and the last slot, whose terminator wraps. -/
theorem witness_SlotsLieInsideTheIndex :
    (ready.IndexLegal ∧ ready.phase ≠ .empty)
      ∧ (prefixSlot ready.mask 62#64).toNat + 1 < ready.capbits.toNat
      ∧ (prefixSlot ready.mask 127#64).toNat + 1 = ready.capbits.toNat := ⟨ready_indexLegal, by decide, by decide⟩

/-- A word of one byte, the empty word, and a word outside the index. -/
theorem witness_InsertOrsTheSlotsOfTheWord :
    (ready.IndexLegal ∧ ready.phase = .ready ∧ ready.arg0.toNat ≤ ready.params.txtBytes
        ∧ ready.arg1.toNat ≤ ready.params.txtBytes - ready.arg0.toNat
        ∧ 1 ≤ (ready.textBytes ready.arg0.toNat ready.arg1.toNat).length)
      ∧ (readyEnd.arg0.toNat ≤ readyEnd.params.txtBytes
        ∧ readyEnd.arg1.toNat ≤ readyEnd.params.txtBytes - readyEnd.arg0.toNat
        ∧ (readyEnd.textBytes readyEnd.arg0.toNat readyEnd.arg1.toNat).length = 0)
      ∧ ready.capbits.toNat / 64 ≤ 1 := ⟨⟨ready_inv.index, by decide⟩, by decide, by decide⟩

/-- The wrong phase; both ways out of range; the whole buffer. -/
theorem witness_InsertFailures :
    State.reset.phase ≠ .ready ∧ readyWhole.phase = .ready
      ∧ readyWhole.params.txtBytes < (readyAt 64#64 [] [] 4097#64 0#64 0#64).arg0.toNat
      ∧ readyWhole.params.txtBytes - 0 < (readyAt 64#64 [] [] 0#64 4097#64 0#64).arg1.toNat
      ∧ readyWhole.arg0.toNat ≤ readyWhole.params.txtBytes
      ∧ readyWhole.arg1.toNat ≤ readyWhole.params.txtBytes - readyWhole.arg0.toNat := by decide

theorem witness_EmptyWordSetsSlotOne :
    readyEnd.IndexLegal ∧ readyEnd.phase = .ready ∧ readyEnd.arg0.toNat ≤ readyEnd.params.txtBytes
      ∧ readyEnd.arg1 = 0#64 := ⟨⟨6, by decide⟩, by decide⟩

theorem readyMoved_inv : readyMoved.Inv where
  index := ⟨6, by decide⟩
  txtCanonical := by decide
  txtInside := by decide
  bitsCanonical := by decide
  bitsInside := by decide
  resCanonical := by decide
  resInside := by decide
  resWritten := by decide
  rcountBounded := by decide

theorem readyMoved_text :
    readyMoved.textBytes readyMoved.arg0.toNat (1#64).toNat = ready.textBytes (0#64).toNat (1#64).toNat := by
  simp [readyMoved, ready, readyAt, textOf, State.textBytes, State.textByte, Cells.read?, List.range_succ]

/-- A word twice and the empty word at the buffer's end; a second state with the same index that holds the word
elsewhere. -/
theorem witness_InsertsDependOnTheSetOfWords :
    ready.Inv ∧ readyMoved.Inv ∧ ready.phase = .ready ∧ readyMoved.phase = .ready
      ∧ readyMoved.table = ready.table ∧ readyMoved.mask = ready.mask ∧ readyMoved.bits = ready.bits
      ∧ (∀ o ∈ [(0#64, 1#64), (4096#64, 0#64), (0#64, 1#64)],
          o.1.toNat ≤ ready.params.txtBytes ∧ o.2.toNat ≤ ready.params.txtBytes - o.1.toNat)
      ∧ (∀ o ∈ [(0#64, 0#64), (2#64, 1#64)],
          o.1.toNat ≤ readyMoved.params.txtBytes ∧ o.2.toNat ≤ readyMoved.params.txtBytes - o.1.toNat)
      ∧ ∀ w, w ∈ [(0#64, 1#64), (4096#64, 0#64), (0#64, 1#64)].map ready.wordAt
          ↔ w ∈ [(0#64, 0#64), (2#64, 1#64)].map readyMoved.wordAt := by
  refine ⟨ready_inv, readyMoved_inv, rfl, rfl, rfl, rfl, rfl, fun o ho => ?_, fun o ho => ?_, fun w => ?_⟩
  · simp only [List.mem_cons, List.not_mem_nil, or_false] at ho
    rcases ho with rfl | rfl | rfl <;> decide
  · simp only [List.mem_cons, List.not_mem_nil, or_false] at ho
    rcases ho with rfl | rfl <;> decide
  have ha : readyMoved.wordAt (2#64, 1#64) = ready.wordAt (0#64, 1#64) := readyMoved_text
  have he : readyMoved.wordAt (0#64, 0#64) = ready.wordAt (4096#64, 0#64) := rfl
  simp only [List.map_cons, List.map_nil, List.mem_cons, List.not_mem_nil, or_false, ha, he]
  rw [or_comm (a := w = ready.wordAt (4096#64, 0#64)), ← or_assoc, or_self, or_comm]

/-- The least and the largest bound, on the shortest and the longest text; an empty text. -/
theorem witness_SearchReturnsTheFirstCandidates :
    (ready.phase = .ready ∧ ready.arg0.toNat ≤ ready.params.txtBytes
        ∧ ready.arg1.toNat ≤ ready.params.txtBytes - ready.arg0.toNat
        ∧ 1 ≤ ready.arg2.toNat ∧ ready.arg2.toNat ≤ ready.params.resEntries)
      ∧ (readyWhole.phase = .ready ∧ readyWhole.arg1.toNat ≤ readyWhole.params.txtBytes - readyWhole.arg0.toNat
        ∧ readyWhole.arg2.toNat ≤ readyWhole.params.resEntries)
      ∧ (readyEnd.arg1.toNat ≤ readyEnd.params.txtBytes - readyEnd.arg0.toNat ∧ readyEnd.arg1 = 0#64) := by decide

/-- Each failing check of SEARCH, and a success that finds nothing. -/
theorem witness_SearchFailures :
    State.reset.phase ≠ .ready ∧ ready.phase = .ready
      ∧ ready.params.txtBytes < (4097#64).toNat ∧ ready.params.txtBytes - (0#64).toNat < (4097#64).toNat
      ∧ (readyAt 64#64 [] [] 0#64 0#64 0#64).arg2 = 0#64 ∧ ready.params.resEntries < (65#64).toNat
      ∧ (ready.arg2 ≠ 0#64 ∧ ready.arg2.toNat ≤ ready.params.resEntries)
      ∧ readyEnd.candidates (readyEnd.textBytes readyEnd.arg0.toNat readyEnd.arg1.toNat) = [] := by decide

theorem witness_SearchIsPure :
    ready.phase = .ready ∧ readyMoved.phase = .ready
      ∧ ready.inRange ready.arg0 ready.arg1 = true ∧ readyMoved.inRange readyMoved.arg0 readyMoved.arg1 = true
      ∧ ready.legalBound ready.arg2 = true ∧ readyMoved.legalBound readyMoved.arg2 = true
      ∧ readyMoved.table = ready.table ∧ readyMoved.mask = ready.mask
      ∧ (∀ p : Word, readyMoved.testBit p = ready.testBit p) ∧ readyMoved.arg2 = ready.arg2
      ∧ readyMoved.textBytes readyMoved.arg0.toNat readyMoved.arg1.toNat
        = ready.textBytes ready.arg0.toNat ready.arg1.toNat :=
  ⟨rfl, rfl, by decide, by decide, by decide, by decide, rfl, rfl, fun _ => rfl, rfl, readyMoved_text⟩

/-- The word is the text, at offset 0, of the state itself. -/
theorem witness_InsertedWordIsACandidate :
    ready.phase = .ready ∧ ready.inRange ready.arg0 ready.arg1 = true ∧ 1 ≤ ready.arg1.toNat
      ∧ 0 + ready.arg1.toNat ≤ (ready.textBytes ready.arg0.toNat ready.arg1.toNat).length
      ∧ span (ready.textBytes ready.arg0.toNat ready.arg1.toNat) 0 ready.arg1.toNat
        = ready.textBytes ready.arg0.toNat ready.arg1.toNat := by
  refine ⟨by decide, by decide, by decide, by decide, ?_⟩
  simp [ready, readyAt, textOf, State.textBytes, State.textByte, Cells.read?, List.range_succ, span]

/-- A word of one byte with bound 1; the longest word a bound of 64 admits. -/
theorem witness_InsertThenSearchFindsTheWord :
    ready.phase = .ready ∧ ready.inRange ready.arg0 ready.arg1 = true ∧ 1 ≤ ready.arg1.toNat
      ∧ ready.arg1.toNat ≤ (1#64).toNat ∧ (1#64).toNat ≤ ready.params.resEntries
      ∧ (readyAt 64#64 [] [] 0#64 64#64 0#64).arg1.toNat ≤ (64#64).toNat ∧ (64#64).toNat ≤ ready.params.resEntries := by
  decide

theorem witness_FreshIndexFindsNothing :
    (resetWith 64#64).phase = .empty ∧ 6 ≤ (resetWith 64#64).params.capLog2Max
      ∧ (resetWith 64#64).arg0.toNat = 2 ^ 6
      ∧ ((0#64).toNat ≤ (resetWith 64#64).params.txtBytes
        ∧ (4096#64).toNat ≤ (resetWith 64#64).params.txtBytes - (0#64).toNat
        ∧ 1 ≤ (1#64).toNat ∧ (64#64).toNat ≤ (resetWith 64#64).params.resEntries) := by decide

end Sys2Proof.Tests
end

section
/-! The family of spec/10_state.md: what reset leaves (R54), what a step may change of a live index (R52, R53), and
what the table depends on (R41). -/

namespace Sys2Proof.Machine

/-! ### Reset -/

/-- The registers right after any reset (R54). -/
theorem State.afterReset_registers (params : Params) (resets : Nat) (pending : List Event) :
    let u := State.afterReset params resets pending
    u.phase = .empty ∧ u.errcode = .ok ∧ u.arg0 = 0#64 ∧ u.arg1 = 0#64 ∧ u.arg2 = 0#64
      ∧ u.retHash = 0#64 ∧ u.rcount = 0#64 ∧ u.capbits = 0#64 ∧ u.mask = 0#64 :=
  ⟨rfl, rfl, rfl, rfl, rfl, rfl, rfl, rfl, rfl⟩

/-- The constant registers read their constants in every state (R35 to R38). -/
theorem State.readRegister_constants (s : State) :
    s.readRegister 10#64 = some (BitVec.ofNat 64 (2 ^ s.params.capLog2Max))
      ∧ s.readRegister 11#64 = some (BitVec.ofNat 64 s.params.txtBytes)
      ∧ s.readRegister 12#64 = some (BitVec.ofNat 64 s.params.resEntries)
      ∧ s.readRegister 13#64 = some 0x00000000DEADBEEF#64 :=
  ⟨rfl, rfl, rfl, rfl⟩

/-- Settles O7: a reset event leads to `State.afterReset`, and the state after reset is one of those. -/
theorem resetSetsTheStatedValues : Obligations.ResetSetsTheStatedValues := by
  unfold Obligations.ResetSetsTheStatedValues
  refine ⟨fun s rest h => ⟨_, step_reset h, ?_⟩, State.afterReset_registers _ _ _⟩
  obtain ⟨hphase, herr, ha0, ha1, ha2, hret, hrc, hcap, hmask⟩ :=
    State.afterReset_registers s.params (s.resets + 1) rest
  exact ⟨hphase, herr, ha0, ha1, ha2, hret, hrc, hcap, hmask, State.readRegister_constants _⟩

/-! ### INIT -/

theorem exec_init_of_allocated {s : State} (h : s.phase = .allocated) :
    exec .init s = .next (State.endCommand .ok (s.runGenTable s.arg0).markReady) := by
  rcases execInit_cases s with ⟨hp, -⟩ | ⟨-, e⟩
  · exact absurd h hp
  · exact e

/-- Settles O30: the table INIT writes is `genTable` of the generator and ARG0. -/
theorem tableDependsOnSeedAlone : Obligations.TableDependsOnSeedAlone := by
  unfold Obligations.TableDependsOnSeedAlone
  intro s s' hs hs' hgen harg
  refine ⟨_, _, exec_init_of_allocated hs, exec_init_of_allocated hs', rfl, rfl, ?_⟩
  simp only [State.endCommand_table, State.markReady_table, State.runGenTable_table, hgen, harg]

/-! ### A live index -/

/-- What may happen to a live index (R52): its registers stay, set slots stay set, and once it is READY it stays
READY with its table. -/
structure OnlyGainsBits (s u : State) : Prop where
  capbits : u.capbits = s.capbits
  mask : u.mask = s.mask
  testBit : ∀ p : Word, s.testBit p = true → u.testBit p = true
  ready : s.phase = .ready → u.phase = .ready ∧ u.table = s.table

/-- An update outside the index. -/
theorem OnlyGainsBits.of_same {s u : State} (hcap : u.capbits = s.capbits) (hmask : u.mask = s.mask)
    (hbits : u.bits = s.bits) (hphase : u.phase = s.phase) (htable : u.table = s.table) : OnlyGainsBits s u where
  capbits := hcap
  mask := hmask
  testBit p hp := (State.testBit_congr hbits p).trans hp
  ready hr := ⟨hphase.trans hr, htable⟩

theorem OnlyGainsBits.trans {s t u : State} (h : OnlyGainsBits s t) (k : OnlyGainsBits t u) :
    OnlyGainsBits s u where
  capbits := k.capbits.trans h.capbits
  mask := k.mask.trans h.mask
  testBit p hp := k.testBit p (h.testBit p hp)
  ready hr := ⟨(k.ready (h.ready hr).1).1, (k.ready (h.ready hr).1).2.trans (h.ready hr).2⟩

/-- INIT writes the table of an index that is not yet READY. -/
theorem OnlyGainsBits.of_init {s : State} (h : s.phase = .allocated) :
    OnlyGainsBits s (State.endCommand .ok (s.runGenTable s.arg0).markReady) where
  capbits := rfl
  mask := rfl
  testBit p hp := (State.testBit_congr (s := s) rfl p).trans hp
  ready hr := by rw [h] at hr; cases hr

/-- INSERT sets slots and clears none. -/
theorem OnlyGainsBits.of_insert (s : State) :
    OnlyGainsBits s (State.endCommand .ok (s.insertWord s.arg0.toNat s.arg1.toNat)) where
  capbits := by simp
  mask := by simp
  testBit p hp := by
    rw [State.testBit_congr (State.endCommand_bits _ _), State.insertWord_testBit _ _ _ s.arg1.isLt, hp, Bool.true_or]
  ready hr := by simp [hr]

theorem OnlyGainsBits.of_search (s : State) :
    OnlyGainsBits s (State.endCommand .ok (s.searchText s.arg0.toNat s.arg1.toNat s.arg2)) :=
  .of_same (by simp) (by simp) (by simp) (by simp) (by simp)

/-- Only ALLOC, which needs EMPTY, and RELEASE, which leads to EMPTY, can do more to an index. -/
theorem execTransaction_onlyGainsBits {t : Transaction} {s u : State} (e : execTransaction t s = .next u)
    (hs : s.phase ≠ .empty) (hu : u.phase ≠ .empty) : OnlyGainsBits s u := by
  rcases execTransaction_cases t s u e with ⟨r, rfl⟩ | ⟨v, -, rfl⟩ | ⟨v, -, rfl⟩ | ⟨v, -, rfl⟩ | ⟨a, v, -, h⟩
    | ⟨-, -, -, ⟨c, rfl⟩ | ⟨-, h, hok⟩ | ⟨-, h, hok⟩ | ⟨-, h, hok⟩ | ⟨-, h, hok⟩ | ⟨-, h, hok⟩⟩
  · exact .of_same rfl rfl rfl rfl rfl
  · exact .of_same rfl rfl rfl rfl rfl
  · exact .of_same rfl rfl rfl rfl rfl
  · exact .of_same rfl rfl rfl rfl rfl
  · rw [h]
    exact .of_same rfl rfl rfl rfl rfl
  · exact .of_same rfl rfl rfl rfl rfl
  · exact absurd (execAlloc_ok h hok).1 hs
  · obtain ⟨hp, rfl⟩ := execInit_ok h hok
    exact .of_init hp
  · obtain ⟨-, rfl⟩ := execInsert_ok h hok
    exact .of_insert s
  · obtain ⟨-, rfl⟩ := execSearch_ok h hok
    exact .of_search s
  · obtain ⟨-, rfl⟩ := execRelease_ok h hok
    exact absurd rfl hu

/-- A step between live phases is idle or accepts a transaction: reset leads to EMPTY. -/
theorem step_onlyGainsBits {s u : State} (e : step s = .next u) (hs : s.phase ≠ .empty) (hu : u.phase ≠ .empty) :
    OnlyGainsBits s u := by
  match hpend : s.pending with
  | [] =>
    rw [step_idle hpend] at e
    cases e
    exact .of_same rfl rfl rfl rfl rfl
  | .reset :: rest =>
    rw [step_reset hpend] at e
    cases e
    exact absurd rfl hu
  | .transaction t :: rest =>
    rw [step_transaction hpend] at e
    have accepted : OnlyGainsBits s { s with pending := rest } := .of_same rfl rfl rfl rfl rfl
    exact accepted.trans (execTransaction_onlyGainsBits e hs hu)

/-- Settles O15, by the case analysis of one step (`step_onlyGainsBits`). -/
theorem liveIndexOnlyGainsBits : Obligations.LiveIndexOnlyGainsBits := by
  unfold Obligations.LiveIndexOnlyGainsBits
  intro s u e hs hu
  obtain ⟨hcap, hmask, hbits, hready⟩ := step_onlyGainsBits e hs hu
  exact ⟨hcap, hmask, hbits, hready⟩

/-- SEARCH answers a next state that differs from `s` outside the index only: it fails, or it scans. -/
theorem exec_search_frame (s : State) : ∃ u, exec .search s = .next u
    ∧ u.table = s.table ∧ u.bits = s.bits ∧ u.capbits = s.capbits ∧ u.mask = s.mask ∧ u.phase = s.phase := by
  rcases execSearch_cases s with ⟨-, e⟩ | ⟨-, -, e⟩ | ⟨-, -, -, e⟩
  · exact ⟨_, e, rfl, rfl, rfl, rfl, rfl⟩
  · exact ⟨_, e, rfl, rfl, rfl, rfl, rfl⟩
  · exact ⟨_, e, by simp⟩

/-- Settles O16: a step between READY states is one between live phases, and SEARCH has the frame above. -/
theorem readyTableIsImmutable : Obligations.ReadyTableIsImmutable := by
  unfold Obligations.ReadyTableIsImmutable
  refine ⟨fun s u e hs hu => ?_, exec_search_frame⟩
  have kept : OnlyGainsBits s u := step_onlyGainsBits e (by simp [hs]) (by simp [hu])
  exact (kept.ready hs).2

end Sys2Proof.Machine
end

section
/-! The family of spec/20_memory.md: the slots of a hash (R77), the transactions that no space accepts (R65), the
register space (R66) and the four windows (R61 to R64). -/

namespace Sys2Proof.Machine

/-! ### Slots -/

/-- A legal capacity holds at least one word of bits. -/
theorem capbits_ge {s : State} (hl : s.IndexLegal) (hp : s.phase ≠ .empty) : 64 ≤ s.capbits.toNat := by
  obtain ⟨d, hd, hc⟩ := capbits_mul hl hp
  omega

/-- A masked word is a slot of the index. -/
theorem and_mask_lt_capbits {s : State} (hl : s.IndexLegal) (hp : s.phase ≠ .empty) (x : Word) :
    (x &&& s.mask).toNat < s.capbits.toNat := by
  rw [and_mask hl hp]
  have hcap := capbits_ge hl hp
  exact Nat.mod_lt _ (by omega)

/-- `terminatorSlot_eq` at the mask of a live index. -/
theorem terminatorSlot_eq_of_live {s : State} (hl : s.IndexLegal) (hp : s.phase ≠ .empty) (h : Word) :
    terminatorSlot s.mask h = ((h &&& s.mask) + 1#64) &&& s.mask := by
  obtain ⟨k, -, hk, -, hm⟩ := mask_toNat hl hp
  exact terminatorSlot_eq s.mask h k hm (hk.trans s.params.capLog2Max_le)

/-- The terminator slot is the successor of `prefixSlot` modulo the capacity. -/
theorem terminatorSlot_toNat {s : State} (hl : s.IndexLegal) (hp : s.phase ≠ .empty) (h : Word) :
    (terminatorSlot s.mask h).toNat = ((prefixSlot s.mask h).toNat + 1) % s.capbits.toNat := by
  have hlt : (h &&& s.mask).toNat < s.capbits.toNat := and_mask_lt_capbits hl hp h
  have hno : (h &&& s.mask).toNat + (1#64).toNat < 2 ^ 64 := by
    have hcap := s.capbits.isLt
    simp only [BitVec.toNat_ofNat]
    omega
  rw [terminatorSlot_eq_of_live hl hp, and_mask hl hp, BitVec.toNat_add_of_lt hno]
  rfl

/-- The slot after a slot inside the index, or slot 0 after the last one. -/
theorem terminatorSlot_cases {s : State} (hl : s.IndexLegal) (hp : s.phase ≠ .empty) (h : Word) :
    ((prefixSlot s.mask h).toNat + 1 < s.capbits.toNat
        ∧ (terminatorSlot s.mask h).toNat = (prefixSlot s.mask h).toNat + 1)
    ∨ ((prefixSlot s.mask h).toNat + 1 = s.capbits.toNat ∧ terminatorSlot s.mask h = 0#64) := by
  have hlt : (prefixSlot s.mask h).toNat < s.capbits.toNat := and_mask_lt_capbits hl hp h
  have hnext := terminatorSlot_toNat hl hp h
  rcases Nat.lt_or_eq_of_le (Nat.succ_le_of_lt hlt) with hin | hlast
  · exact .inl ⟨hin, hnext.trans (Nat.mod_eq_of_lt hin)⟩
  · refine .inr ⟨hlast, BitVec.eq_of_toNat_eq ?_⟩
    rw [hnext, ← hlast]
    exact Nat.mod_self _

/-- An index has more than one slot, so no slot is its own successor. -/
theorem terminatorSlot_ne_prefixSlot {s : State} (hl : s.IndexLegal) (hp : s.phase ≠ .empty) (h : Word) :
    terminatorSlot s.mask h ≠ prefixSlot s.mask h := by
  intro heq
  have hcap := capbits_ge hl hp
  rcases terminatorSlot_cases hl hp h with ⟨-, hnext⟩ | ⟨hlast, hzero⟩
  · rw [heq] at hnext
    omega
  · rw [← heq, hzero, BitVec.toNat_ofNat] at hlast
    omega

/-- Settles O36: both slots are masked words, and the terminator is the successor of `prefixSlot` modulo CAPBITS. -/
theorem slotsLieInsideTheIndex : Obligations.SlotsLieInsideTheIndex := by
  unfold Obligations.SlotsLieInsideTheIndex
  intro s h hl hp
  refine ⟨rfl, rfl, fun p => ⟨slotWord_eq p, slotBit_eq p⟩, and_mask_lt_capbits hl hp h,
    and_mask_lt_capbits hl hp (h + 1#64), slot_inside hl hp h, slot_inside hl hp (h + 1#64),
    terminatorSlot_eq_of_live hl hp h, fun hin => ?_, fun hlast => ?_, terminatorSlot_ne_prefixSlot hl hp h⟩
  · rcases terminatorSlot_cases hl hp h with ⟨-, hnext⟩ | ⟨hlast, -⟩
    · exact hnext
    · omega
  · rcases terminatorSlot_cases hl hp h with ⟨hin, -⟩ | ⟨-, hzero⟩
    · omega
    · exact hzero

/-! ### Transactions that are no instruction -/

/-- The decoder rejects every transaction to a reserved space and every write to a read-only one. -/
theorem decode_rejected {t : Transaction}
    (h : 5 ≤ t.space.toNat ∨ (t.we = true ∧ 2 ≤ t.space.toNat ∧ t.space.toNat ≤ 4)) :
    ∃ r, decode t = .rejected r := by
  rcases decode_cases t with ⟨hs, -⟩ | ⟨hs, -⟩ | ⟨hs, -⟩ | ⟨hs, hw, -⟩ | ⟨hs, hw, -⟩ | ⟨hs, hw, -⟩
    | ⟨-, -, e⟩ | ⟨-, e⟩
  · exact absurd h (by simp [hs])
  · exact absurd h (by simp [hs])
  · exact absurd h (by simp [hs])
  · exact absurd h (by simp [hs, hw])
  · exact absurd h (by simp [hs, hw])
  · exact absurd h (by simp [hs, hw])
  · exact ⟨_, e⟩
  · exact ⟨_, e⟩

/-- R65: such a transaction is a port fault. -/
theorem execTransaction_rejected {t : Transaction}
    (h : 5 ≤ t.space.toNat ∨ (t.we = true ∧ 2 ≤ t.space.toNat ∧ t.space.toNat ≤ 4)) (s : State) :
    execTransaction t s = .next { s with response := some .fault } := by
  obtain ⟨r, e⟩ := decode_rejected h
  unfold execTransaction
  rw [e]
  rfl

theorem execTransaction_write_readOnly {space : BitVec 3} (h : 2 ≤ space.toNat ∧ space.toNat ≤ 4)
    (addr v : Word) (s : State) :
    execTransaction ⟨true, space, addr, v⟩ s = .next { s with response := some .fault } :=
  execTransaction_rejected (.inr ⟨rfl, h⟩) s

/-- Settles O6: the step runs the transaction, and the decoder rejects it. -/
theorem reservedSpacesFault : Obligations.ReservedSpacesFault := by
  unfold Obligations.ReservedSpacesFault
  intro s t rest hpend h
  rw [step_transaction hpend, execTransaction_rejected h]

/-! ### Reads -/

theorem State.answerRead_of_some {o : Option Word} {v : Word} (h : o = some v) (s : State) :
    s.answerRead o = { s with response := some (.okayData v) } := by
  rw [h, State.answerRead_eq]
  rfl

theorem State.answerRead_of_none {o : Option Word} (h : o = none) (s : State) :
    s.answerRead o = { s with response := some .fault } := by
  rw [h, State.answerRead_eq]
  rfl

/-! ### The register space -/

theorem exec_rdreg_of_some {s : State} {n v : Word} (h : s.readRegister n = some v) :
    exec (.rdreg n) s = .next { s with response := some (.okayData v) } :=
  congrArg Host.Outcome.next (State.answerRead_of_some h s)

theorem exec_rdreg_of_none {s : State} {n : Word} (h : s.readRegister n = none) :
    exec (.rdreg n) s = .next { s with response := some .fault } :=
  congrArg Host.Outcome.next (State.answerRead_of_none h s)

/-- A write to a number other than CMD that a register accepts. -/
theorem exec_wrreg_of_some {s u : State} {n v : Word} (hn : n ≠ 0#64) (h : s.writeRegister n v = some u) :
    exec (.wrreg n v) s = .next { u with response := some .okay } := by
  show execWrreg n v s = _
  unfold execWrreg
  rw [if_neg hn, h]
  rfl

theorem exec_wrreg_of_none {s : State} {n v : Word} (hn : n ≠ 0#64) (h : s.writeRegister n v = none) :
    exec (.wrreg n v) s = .next { s with response := some .fault } := by
  show execWrreg n v s = _
  unfold execWrreg
  rw [if_neg hn, h]
  rfl

/-- A write to CMD is the command word (R100). -/
theorem exec_wrreg_cmd (cw : Word) (s : State) : exec (.wrreg 0#64 cw) s = execCommandWord cw s := by
  show execWrreg 0#64 cw s = _
  exact if_pos rfl

/-- No register above ARG2 accepts a write. -/
theorem State.writeRegister_eq_none {n : Word} (hn : 4 ≤ n.toNat) (v : Word) (s : State) :
    s.writeRegister n v = none := by
  rcases State.writeRegister_cases n v s with ⟨h, -⟩ | ⟨h, -⟩ | ⟨h, -⟩ | ⟨-, e⟩
  · omega
  · omega
  · omega
  · exact e

theorem State.capmaxWord_toNat (s : State) : s.capmaxWord.toNat = 2 ^ s.params.capLog2Max := by
  have hle : 2 ^ s.params.capLog2Max ≤ 2 ^ 63 := Nat.pow_le_pow_right (by decide) s.params.capLog2Max_le
  exact Nat.mod_eq_of_lt (by omega)

theorem State.txtsizeWord_toNat (s : State) : s.txtsizeWord.toNat = s.params.txtBytes := by
  have hle := s.params.txtBytes_le
  exact Nat.mod_eq_of_lt (by omega)

theorem State.ressizeWord_toNat (s : State) : s.ressizeWord.toNat = s.params.resEntries := by
  have hle := s.params.resEntries_le
  exact Nat.mod_eq_of_lt (by omega)

/-- Settles O17, register by register. -/
theorem registerSpaceAccess : Obligations.RegisterSpaceAccess := by
  unfold Obligations.RegisterSpaceAccess
  intro s
  obtain ⟨hcapmax, htxtsize, hressize, hconst⟩ := s.readRegister_constants
  refine ⟨exec_rdreg_of_some rfl, exec_rdreg_of_some rfl, exec_rdreg_of_some rfl, exec_rdreg_of_some rfl,
    exec_rdreg_of_some rfl, exec_rdreg_of_some rfl, exec_rdreg_of_some rfl, exec_rdreg_of_some rfl,
    exec_rdreg_of_some rfl, ⟨_, exec_rdreg_of_some hcapmax, s.capmaxWord_toNat⟩,
    ⟨_, exec_rdreg_of_some htxtsize, s.txtsizeWord_toNat⟩, ⟨_, exec_rdreg_of_some hressize, s.ressizeWord_toNat⟩,
    exec_rdreg_of_some hconst, fun v => exec_wrreg_of_some (n := 1#64) (by decide) rfl,
    fun v => exec_wrreg_of_some (n := 2#64) (by decide) rfl,
    fun v => exec_wrreg_of_some (n := 3#64) (by decide) rfl,
    fun c => ?command, fun cw hcw => ?illegal, fun n hn => ?readFault, fun n v hn => ?writeFault⟩
  case command => rw [exec_wrreg_cmd, execCommandWord_encode]
  case illegal =>
    rw [exec_wrreg_cmd, execCommandWord_illegal hcw]
    rfl
  case readFault => exact exec_rdreg_of_none ((State.readRegister_eq_none_iff n s).2 hn)
  case writeFault =>
    refine exec_wrreg_of_none ?_ (State.writeRegister_eq_none hn v s)
    rintro rfl
    exact absurd hn (by decide)

/-! ### The window TXT -/

theorem exec_rdtxt_of_lt {s : State} {addr : Word} (h : addr.toNat < s.params.txtBytes) :
    exec (.rdtxt addr) s
      = .next { s with response := some (.okayData ((s.textByte addr.toNat).setWidth 64)) } :=
  congrArg Host.Outcome.next (State.answerRead_of_some (if_pos h) s)

theorem exec_rdtxt_of_ge {s : State} {addr : Word} (h : s.params.txtBytes ≤ addr.toNat) :
    exec (.rdtxt addr) s = .next { s with response := some .fault } :=
  congrArg Host.Outcome.next (State.answerRead_of_none (if_neg (not_lt.2 h)) s)

theorem exec_wrtxt_of_lt {s : State} {addr : Word} (h : addr.toNat < s.params.txtBytes) (v : Word) :
    exec (.wrtxt addr v) s = .next (State.answer .okay (s.storeText addr.toNat (v.extractLsb' 0 8))) :=
  if_pos h

theorem exec_wrtxt_of_ge {s : State} {addr : Word} (h : s.params.txtBytes ≤ addr.toNat) (v : Word) :
    exec (.wrtxt addr v) s = .next { s with response := some .fault } :=
  if_neg (not_lt.2 h)

/-- Settles O19: a store is read back at its own address only (`State.textByte_storeText`). -/
theorem textWindowReadsAndStores : Obligations.TextWindowReadsAndStores := by
  unfold Obligations.TextWindowReadsAndStores
  intro s addr v
  refine ⟨fun h => ⟨exec_rdtxt_of_lt h, _, exec_wrtxt_of_lt h v, rfl, fun a => ?_⟩,
    fun h => ⟨exec_rdtxt_of_ge h, exec_wrtxt_of_ge h v⟩⟩
  exact (State.textByte_congr rfl rfl a).trans (State.textByte_storeText s a addr.toNat _)

/-! ### The window RES -/

theorem recordIndex_eq (addr : Word) : recordIndex addr = addr.toNat / 4 := by
  simp [recordIndex, Nat.shiftRight_eq_div_pow]

/-- The field number of a record address is its remainder by 4. -/
theorem fieldNumber_toNat (addr : Word) : (addr.extractLsb' 0 2).toNat = addr.toNat % 4 := by
  simp [BitVec.extractLsb'_toNat]

/-- The fields of a record by their numbers (R62). -/
theorem MatchRecord.field_cases (r : MatchRecord) (f : BitVec 2) :
    (f.toNat = 0 → r.field f = r.start) ∧ (f.toNat = 1 → r.field f = r.length)
      ∧ (f.toNat = 2 → r.field f = r.hash) ∧ (f.toNat = 3 → r.field f = 0#64) := by
  refine ⟨fun h => ?_, fun h => ?_, fun h => ?_, fun h => ?_⟩ <;> simp only [MatchRecord.field, h]

theorem exec_rdres_of_lt {s : State} {addr : Word} (h : addr.toNat / 4 < s.rcount.toNat) :
    exec (.rdres addr) s
      = .next { s with
          response := some (.okayData ((s.record (addr.toNat / 4)).field (addr.extractLsb' 0 2))) } := by
  rw [← recordIndex_eq] at h ⊢
  exact congrArg Host.Outcome.next (State.answerRead_of_some (if_pos h) s)

theorem exec_rdres_of_ge {s : State} {addr : Word} (h : s.rcount.toNat ≤ addr.toNat / 4) :
    exec (.rdres addr) s = .next { s with response := some .fault } := by
  rw [← recordIndex_eq] at h
  exact congrArg Host.Outcome.next (State.answerRead_of_none (if_neg (not_lt.2 h)) s)

/-- Settles O20: a read below RCOUNT answers the field its address names; every write is rejected. -/
theorem resultWindowReadsRecords : Obligations.ResultWindowReadsRecords := by
  unfold Obligations.ResultWindowReadsRecords
  intro s addr
  refine ⟨exec_rdres_of_ge, fun h => ?_, fun v => execTransaction_write_readOnly (by decide) addr v s⟩
  obtain ⟨hstart, hlength, hhash, hzero⟩ :=
    (s.record (addr.toNat / 4)).field_cases (addr.extractLsb' 0 2)
  rw [fieldNumber_toNat] at hstart hlength hhash hzero
  rw [exec_rdres_of_lt h]
  exact ⟨fun hf => by rw [hstart hf], fun hf => by rw [hlength hf], fun hf => by rw [hhash hf],
    fun hf => by rw [hzero hf]⟩

/-! ### The window BITS -/

theorem exec_rdbits_of_lt {s : State} {addr : Word} (hp : s.phase ≠ .empty)
    (h : addr.toNat < s.capbits.toNat / 64) :
    exec (.rdbits addr) s = .next { s with response := some (.okayData (s.bitsWord addr.toNat)) } :=
  congrArg Host.Outcome.next (State.answerRead_of_some (if_pos ⟨hp, h⟩) s)

theorem exec_rdbits_fault {s : State} {addr : Word}
    (h : s.phase = .empty ∨ s.capbits.toNat / 64 ≤ addr.toNat) :
    exec (.rdbits addr) s = .next { s with response := some .fault } := by
  have closed : ¬ (s.phase ≠ .empty ∧ addr.toNat < s.capbits.toNat / 64) := by
    rintro ⟨hp, hlt⟩
    exact h.elim hp (not_le.2 hlt)
  exact congrArg Host.Outcome.next (State.answerRead_of_none (if_neg closed) s)

/-- Settles O21: the window is open outside EMPTY, which is ALLOCATED and READY; every write is rejected. -/
theorem bitsWindowReadsWords : Obligations.BitsWindowReadsWords := by
  unfold Obligations.BitsWindowReadsWords
  intro s addr
  refine ⟨fun hp h => exec_rdbits_of_lt ?_ h, exec_rdbits_fault,
    fun v => execTransaction_write_readOnly (by decide) addr v s⟩
  rcases hp with hp | hp <;> simp [hp]

/-! ### The window TAB -/

/-- The entry that the low byte of an address below 256 selects. -/
theorem tableEntry_lowByte (t : Vector Word 256) {addr : Word} (h : addr.toNat ≤ 255) :
    t[addr.toNat]? = some (tableEntry t (addr.extractLsb' 0 8)) := by
  have hbyte : (addr.extractLsb' 0 8).toNat = addr.toNat := by
    simp only [BitVec.extractLsb'_toNat, Nat.shiftRight_zero]
    omega
  rw [tableEntry_eq, ← hbyte]
  exact Vector.getElem?_eq_getElem _

theorem exec_rdtab_of_le {s : State} {addr : Word} (hp : s.phase = .ready) (h : addr.toNat ≤ 255) :
    exec (.rdtab addr) s
      = .next { s with response := some (.okayData (tableEntry s.table (addr.extractLsb' 0 8))) } :=
  congrArg Host.Outcome.next (State.answerRead_of_some (if_pos ⟨hp, h⟩) s)

theorem exec_rdtab_fault {s : State} {addr : Word} (h : s.phase ≠ .ready ∨ 256 ≤ addr.toNat) :
    exec (.rdtab addr) s = .next { s with response := some .fault } := by
  have closed : ¬ (s.phase = .ready ∧ addr.toNat ≤ 255) := by
    rintro ⟨hp, hle⟩
    exact h.elim (· hp) (by omega)
  exact congrArg Host.Outcome.next (State.answerRead_of_none (if_neg closed) s)

/-- Settles O22: an address up to 255 is the byte that selects the entry; every write is rejected. -/
theorem tableWindowReadsEntries : Obligations.TableWindowReadsEntries := by
  unfold Obligations.TableWindowReadsEntries
  intro s addr
  exact ⟨fun hp h => ⟨_, tableEntry_lowByte s.table h, exec_rdtab_of_le hp h⟩, exec_rdtab_fault,
    fun v => execTransaction_write_readOnly (by decide) addr v s⟩

end Sys2Proof.Machine
end

section
/-! The family of spec/30_encoding.md: the command words (R101 to R103). -/

namespace Sys2Proof

/-- A command word is its bits 63 to 8 followed by its OPC (R101). -/
theorem word_toNat_eq_fields (cw : Word) :
    cw.toNat = 256 * (cw.extractLsb' 8 56).toNat + (cw.extractLsb' 0 8).toNat := by
  have hlt := cw.isLt
  simp only [BitVec.extractLsb'_toNat, Nat.shiftRight_eq_div_pow]
  omega

/-- The illegal words of R103: one of bits 63 to 8 is set, or the OPC is no command's. -/
theorem decodeCommand_eq_none_iff_fields (cw : Word) :
    decodeCommand cw = none ↔
      cw.extractLsb' 8 56 ≠ 0#56 ∨ (cw.extractLsb' 0 8).toNat = 0 ∨ 6 ≤ (cw.extractLsb' 0 8).toNat := by
  have hvalue := word_toNat_eq_fields cw
  have hopc := (cw.extractLsb' 0 8).isLt
  have hhigh : cw.extractLsb' 8 56 ≠ 0#56 ↔ (cw.extractLsb' 8 56).toNat ≠ 0 := BitVec.toNat_ne
  rw [decodeCommand_eq_none_iff, hhigh]
  omega

namespace Machine

/-- A CMD write of an illegal word sets ERRCODE, is answered OKAY, and changes nothing else (R103). -/
theorem exec_wrreg_illegal {cw : Word} (h : decodeCommand cw = none) (s : State) :
    exec (.wrreg 0#64 cw) s = .next { s with errcode := .illegalCommand, response := some .okay } := by
  rw [exec_wrreg_cmd, execCommandWord_illegal h]
  rfl

/-- A CMD write of a command's word is that command (R100, R102). -/
theorem exec_wrreg_encodeCommand (c : Command) (s : State) :
    exec (.wrreg 0#64 (encodeCommand c)) s = exec c.instr s := by
  rw [exec_wrreg_cmd, execCommandWord_encode]

/-- Settles O3: the fields of a word say whether it is a command (`decodeCommand_eq_none_iff_fields`), and a word
that is one is that command's encoding. -/
theorem commandWordsDecodeAsListed : Obligations.CommandWordsDecodeAsListed := by
  unfold Obligations.CommandWordsDecodeAsListed
  refine ⟨fun cw hcw => ?illegal, rfl, fun cw hhigh hlow hle => ?legal, rfl, rfl, rfl, rfl, rfl⟩
  case illegal =>
    have hnone : decodeCommand cw = none := (decodeCommand_eq_none_iff_fields cw).2 hcw
    exact ⟨hnone, exec_wrreg_illegal hnone⟩
  case legal =>
    have hsome : decodeCommand cw ≠ none := by
      rw [ne_eq, decodeCommand_eq_none_iff_fields]
      rintro (hset | hzero | hbig)
      · exact hset hhigh
      · omega
      · omega
    obtain ⟨c, hc⟩ := Option.ne_none_iff_exists'.1 hsome
    obtain rfl : cw = encodeCommand c := decodeCommand_eq_some hc
    exact ⟨c, hc, rfl, exec_wrreg_encodeCommand c⟩

end Machine
end Sys2Proof
end

section
/-! The family of spec/41_index_store.md: ALLOC (R140 to R144), INIT outside ALLOCATED (R147), RELEASE (R150, R152),
the lifecycle of an index (R153), and the empty index that ALLOC and INIT leave (R148). -/

namespace Sys2Proof.Machine

/-! ### Commands in a phase where they are illegal -/

theorem exec_alloc_of_live {s : State} (hp : s.phase ≠ .empty) :
    exec .alloc s = .next { s with errcode := .invalidState, response := some .okay } :=
  if_pos hp

theorem exec_init_of_not_allocated {s : State} (hp : s.phase ≠ .allocated) :
    exec .init s = .next { s with errcode := .invalidState, response := some .okay } :=
  if_pos hp

theorem exec_insert_of_not_ready {s : State} (hp : s.phase ≠ .ready) :
    exec .insert s = .next { s with errcode := .invalidState, response := some .okay } :=
  if_pos hp

theorem exec_search_of_not_ready {s : State} (hp : s.phase ≠ .ready) :
    exec .search s = .next { s with errcode := .invalidState, response := some .okay } :=
  if_pos hp

theorem exec_release_of_empty {s : State} (hp : s.phase = .empty) :
    exec .release s = .next { s with errcode := .invalidState, response := some .okay } :=
  if_pos hp

/-- Settles O31: neither phase is ALLOCATED. -/
theorem initOnlyOnce : Obligations.InitOnlyOnce := by
  unfold Obligations.InitOnlyOnce
  intro s hp
  refine exec_init_of_not_allocated ?_
  rcases hp with hp | hp <;> simp [hp]

/-- Settles O25, by the outcomes of each command. -/
theorem lifecycleTable : Obligations.LifecycleTable := by
  unfold Obligations.LifecycleTable
  intro s
  refine ⟨?alloc, ?init, ?insert, ?search, ?release⟩
  case alloc =>
    rcases execAlloc_cases s with ⟨hp, e⟩ | ⟨hp, -, e⟩ | ⟨hp, -, -, e⟩ | ⟨hp, -, -, e⟩
    all_goals exact ⟨_, e, by simp [hp]⟩
  case init =>
    rcases execInit_cases s with ⟨hp, e⟩ | ⟨hp, e⟩
    all_goals exact ⟨_, e, by simp [hp]⟩
  case insert =>
    rcases execInsert_cases s with ⟨hp, e⟩ | ⟨hp, -, e⟩ | ⟨hp, -, e⟩
    all_goals exact ⟨_, e, by simp [hp]⟩
  case search =>
    rcases execSearch_cases s with ⟨hp, e⟩ | ⟨hp, -, e⟩ | ⟨hp, -, -, e⟩
    all_goals exact ⟨_, e, by simp [hp]⟩
  case release =>
    rcases execRelease_cases s with ⟨hp, e⟩ | ⟨hp, e⟩
    all_goals exact ⟨_, e, by simp [hp]⟩

/-! ### The capacity -/

/-- A power of two is a multiple of 64 from the sixth on. -/
theorem two_pow_mod_64_eq_zero_iff (k : Nat) : 2 ^ k % 64 = 0 ↔ 6 ≤ k := by
  rw [← Nat.dvd_iff_mod_eq_zero]
  exact Nat.pow_dvd_pow_iff_le_right (x := 2) (k := 6) (by decide)

/-- A power of two that is a word is at most the 63rd. -/
theorem exponent_le_of_toNat_eq {c : Word} {k : Nat} (h : c.toNat = 2 ^ k) : k ≤ 63 := by
  have hlt : 2 ^ k < 2 ^ 64 := h ▸ c.isLt
  exact Nat.le_of_lt_succ ((Nat.pow_lt_pow_iff_right (by decide)).1 hlt)

/-- A legal capacity is a nonzero multiple of 64 that is a power of two. -/
theorem legalCap_iff_mod (c : Word) :
    legalCap c = true ↔ c.toNat ≠ 0 ∧ c.toNat % 64 = 0 ∧ ∃ k, c.toNat = 2 ^ k := by
  rw [legalCap_iff]
  constructor
  · rintro ⟨k, h6, -, hk⟩
    rw [hk]
    exact ⟨by positivity, (two_pow_mod_64_eq_zero_iff k).2 h6, k, rfl⟩
  · rintro ⟨-, hmod, k, hk⟩
    rw [hk, two_pow_mod_64_eq_zero_iff] at hmod
    exact ⟨k, hmod, exponent_le_of_toNat_eq hk, hk⟩

/-- The check as a test on bits: no low bit set, and one bit set in all. -/
theorem legalCap_iff_bits (c : Word) :
    legalCap c = true ↔ c ≠ 0#64 ∧ c &&& (c - 1#64) = 0#64 ∧ c.extractLsb' 0 6 = 0#6 := by
  unfold legalCap
  rw [Bool.and_eq_true, Bool.and_eq_true, bne_iff_ne, beq_iff_eq, beq_iff_eq]
  tauto

/-! ### ALLOC in EMPTY -/

theorem exec_alloc_of_illegal {s : State} (hp : s.phase = .empty) (hc : legalCap s.arg0 = false) :
    exec .alloc s = .next { s with errcode := .configError, response := some .okay } :=
  (if_neg (not_not.2 hp)).trans (if_pos hc)

theorem exec_alloc_of_tooLarge {s : State} (hp : s.phase = .empty) (hc : legalCap s.arg0 = true)
    (hbig : 2 ^ s.params.capLog2Max < s.arg0.toNat) :
    exec .alloc s = .next { s with errcode := .allocationError, response := some .okay } :=
  (if_neg (not_not.2 hp)).trans ((if_neg (by simp [hc])).trans (if_pos hbig))

theorem exec_alloc_of_fits {s : State} (hp : s.phase = .empty) (hc : legalCap s.arg0 = true)
    (hfit : s.arg0.toNat ≤ 2 ^ s.params.capLog2Max) :
    exec .alloc s = .next (State.endCommand .ok ((s.zeroBits (s.arg0.toNat / 64)).openIndex s.arg0)) :=
  (if_neg (not_not.2 hp)).trans ((if_neg (by simp [hc])).trans (if_neg (not_lt.2 hfit)))

/-- `2^k` for `6 <= k <= CAPLOG2_MAX` is legal and fits. -/
theorem exec_alloc_of_two_pow {s : State} {k : Nat} (hp : s.phase = .empty) (h6 : 6 ≤ k)
    (hk : k ≤ s.params.capLog2Max) (hc : s.arg0.toNat = 2 ^ k) :
    exec .alloc s = .next (State.endCommand .ok ((s.zeroBits (2 ^ k / 64)).openIndex s.arg0)) := by
  rw [← hc]
  refine exec_alloc_of_fits hp ((legalCap_iff _).2 ⟨k, h6, hk.trans s.params.capLog2Max_le, hc⟩) ?_
  rw [hc]
  exact Nat.pow_le_pow_right (by decide) hk

/-- Settles O26. -/
theorem legalCapacities : Obligations.LegalCapacities := by
  unfold Obligations.LegalCapacities
  exact ⟨fun c => ⟨legalCap_iff_mod c, legalCap_iff c, legalCap_iff_bits c⟩, fun _ => exec_alloc_of_illegal⟩

/-- Settles O27: one equation per outcome of ALLOC. -/
theorem allocFailures : Obligations.AllocFailures := by
  unfold Obligations.AllocFailures
  intro s
  exact ⟨exec_alloc_of_tooLarge, fun hp hc hfit => ⟨_, exec_alloc_of_fits hp hc hfit, rfl, rfl⟩,
    exec_alloc_of_illegal, exec_alloc_of_live⟩

/-- Settles O28: the words are those `State.zeroBits` zeroes, and the window ends at CAPBITS / 64. -/
theorem allocGrantsZeroedWords : Obligations.AllocGrantsZeroedWords := by
  unfold Obligations.AllocGrantsZeroedWords
  intro s k hp h6 hk hc
  set t := State.endCommand .ok ((s.zeroBits (2 ^ k / 64)).openIndex s.arg0) with ht
  have hphase : t.phase ≠ .empty := by simp [ht]
  have hwords : t.capbits.toNat / 64 = 2 ^ k / 64 := by simp [ht, hc]
  have hbits : ∀ w, t.bitsWord w = if w < 2 ^ k / 64 then 0#64 else s.bitsWord w := State.bitsWord_zeroBits s _
  refine ⟨t, exec_alloc_of_two_pow hp h6 hk hc, rfl, hbits, fun w hw => ?_, fun w hw => ?_⟩
  · rw [exec_rdbits_of_lt hphase (hwords ▸ hw), hbits, if_pos hw]
  · exact exec_rdbits_fault (.inr (hwords ▸ hw))

/-! ### RELEASE -/

theorem exec_release_of_live {s : State} (hp : s.phase ≠ .empty) :
    exec .release s = .next (State.endCommand .ok s.closeIndex) :=
  if_neg hp

/-- Settles O32: RELEASE leaves EMPTY, in which both windows are closed and the other commands illegal. -/
theorem releaseClosesTheIndex : Obligations.ReleaseClosesTheIndex := by
  unfold Obligations.ReleaseClosesTheIndex
  intro s
  refine ⟨fun hp => ⟨_, exec_release_of_live hp, rfl, ?_⟩, exec_release_of_empty⟩
  set t := State.endCommand .ok s.closeIndex
  have ht : t.phase = .empty := rfl
  exact ⟨fun w => exec_rdbits_fault (.inl ht), fun b => exec_rdtab_fault (.inl (by simp [ht])),
    exec_init_of_not_allocated (by simp [ht]), exec_insert_of_not_ready (by simp [ht]),
    exec_search_of_not_ready (by simp [ht]), exec_release_of_empty ht⟩

/-! ### SEARCH of an index that holds no bit -/

/-- Where every word of the index is 0, no masked slot is set. -/
theorem State.testBit_and_mask_of_zero {s : State} (hl : s.IndexLegal) (hp : s.phase ≠ .empty)
    (hzero : ∀ x < s.capbits.toNat / 64, s.bitsWord x = 0#64) (h : Word) : s.testBit (h &&& s.mask) = false := by
  rw [State.testBit_eq, hzero _ (slot_inside hl hp h), BitVec.getLsbD_zero]

/-- A candidate needs its terminator bit. -/
theorem State.candidates_eq_nil_of_zero {s : State} (hl : s.IndexLegal) (hp : s.phase ≠ .empty)
    (hzero : ∀ x < s.capbits.toNat / 64, s.bitsWord x = 0#64) (text : List Byte) : s.candidates text = [] := by
  refine List.eq_nil_iff_forall_not_mem.2 fun c hc => ?_
  obtain ⟨-, -, -, hcand⟩ := (State.mem_candidates s text c).1 hc
  have hset := (Bool.and_eq_true_iff.1 hcand).2
  exact Bool.false_ne_true ((State.testBit_and_mask_of_zero hl hp hzero _).symm.trans hset)

/-- A text without candidates gives no record. -/
theorem State.searchText_rcount_of_no_candidates {s : State} {base : Nat} {len max : Word} (hmax : 1 ≤ max.toNat)
    (h : s.candidates (s.textBytes base len.toNat) = []) :
    (s.searchText base len.toNat max).rcount = 0#64 := by
  obtain ⟨hrec, -, -⟩ := State.searchText_spec base len.toNat max s len.isLt hmax
  have hcount := congrArg List.length hrec
  rw [h] at hcount
  exact BitVec.eq_of_toNat_eq (by simpa [State.records] using hcount)

/-- SEARCH with legal operands of an index that holds no bit succeeds and finds nothing. -/
theorem exec_search_of_zero {s : State} (hl : s.IndexLegal) (hp : s.phase = .ready)
    (hzero : ∀ x < s.capbits.toNat / 64, s.bitsWord x = 0#64) (h0 : s.arg0.toNat ≤ s.params.txtBytes)
    (h1 : s.arg1.toNat ≤ s.params.txtBytes - s.arg0.toNat) (h2 : 1 ≤ s.arg2.toNat)
    (h3 : s.arg2.toNat ≤ s.params.resEntries) :
    ∃ v, exec .search s = .next v ∧ v.errcode = .ok ∧ v.rcount = 0#64 :=
  ⟨_, execSearch_of_legal hp h0 h1 h2 h3, rfl,
    State.searchText_rcount_of_no_candidates h2 (State.candidates_eq_nil_of_zero hl (by simp [hp]) hzero _)⟩

/-- Settles O46: ALLOC zeroes the words of the index and INIT writes none. -/
theorem freshIndexFindsNothing : Obligations.FreshIndexFindsNothing := by
  unfold Obligations.FreshIndexFindsNothing
  intro s k seed hp h6 hk hc
  have hzero : ∀ x < 2 ^ k / 64, (s.zeroBits (2 ^ k / 64)).bitsWord x = 0#64 :=
    fun x hx => (State.bitsWord_zeroBits s _ x).trans (if_pos hx)
  refine ⟨_, _, exec_alloc_of_two_pow hp h6 hk hc, exec_init_of_allocated rfl, rfl, hzero,
    fun m a l max ha hlen hmin hmax => ?_⟩
  exact exec_search_of_zero ⟨k, h6, hk, hc, rfl⟩ rfl (hc ▸ hzero) ha hlen hmin hmax

end Sys2Proof.Machine
end

section
/-! The family of spec/42_insert.md: the rolling hash (R160, R163) and the command INSERT (R170, R171). -/

namespace Sys2Proof.Machine

/-! ### The hash step -/

/-- Bit 0 moves to bit 63 (R160). -/
theorem ror1_getLsbD_top (a : Word) : (ror1 a).getLsbD 63 = a.getLsbD 0 := by
  rw [ror1_eq_rotateRight, getLsbD_rotateRight_mod a 1 63 (by decide)]

/-- Every other bit moves one place down (R160). -/
theorem ror1_getLsbD_of_lt (a : Word) {i : Nat} (hi : i < 63) : (ror1 a).getLsbD i = a.getLsbD (i + 1) := by
  have hnext : (i + 1) % 64 = i + 1 := Nat.mod_eq_of_lt (by omega)
  rw [ror1_eq_rotateRight, getLsbD_rotateRight_mod a 1 i (by omega), hnext]

/-- The entry a byte selects is the one at the byte's value. -/
theorem getElem?_eq_some_tableEntry (t : Vector Word 256) (b : Byte) : t[b.toNat]? = some (tableEntry t b) := by
  rw [tableEntry_eq]
  exact Vector.getElem?_eq_getElem _

/-- Settles O33. -/
theorem rollIsRotateThenXor : Obligations.RollIsRotateThenXor := by
  unfold Obligations.RollIsRotateThenXor
  refine ⟨ror1_eq_rotateRight, ror1_getLsbD_top, fun a i hi => ror1_getLsbD_of_lt a hi, fun t h b => ?_⟩
  rw [getElem?_eq_some_tableEntry]
  rfl

/-! ### The closed form of the hash -/

theorem wordHash_singleton (t : Vector Word 256) (b : Byte) : wordHash t [b] = tableEntry t b :=
  BitVec.zero_xor

/-- The first byte of a word is rotated once for every byte after it. -/
theorem wordHash_cons (t : Vector Word 256) (b : Byte) (w : List Byte) :
    wordHash t (b :: w) = (tableEntry t b).rotateRight w.length ^^^ wordHash t w := by
  rw [← List.singleton_append, wordHash_append, wordHash_singleton]

/-- R163: the xor of the entries, each rotated once for every byte after its own. -/
theorem wordHash_closedForm (t : Vector Word 256) (w : List Byte) :
    wordHash t w =
      ((List.range w.length).map
        (fun i => (tableEntry t (w.getD i 0#8)).rotateRight (w.length - 1 - i))).foldr (· ^^^ ·) 0#64 := by
  induction w with
  | nil => rfl
  | cons b w ih =>
    rw [wordHash_cons, ih, List.length_cons, List.range_succ_eq_map]
    simp [Function.comp_def, Nat.sub_sub, Nat.add_comm 1]

/-- Two bytes 64 positions apart are rotated alike, since 64 rotations are none. -/
theorem wordHash_around (t : Vector Word 256) {v : List Byte} (hv : v.length = 63) (b c : Byte) :
    wordHash t ([b] ++ v ++ [c]) = tableEntry t b ^^^ tableEntry t c ^^^ ror1 (wordHash t v) := by
  have hfull : ((tableEntry t b).rotateRight 63).rotateRight 1 = tableEntry t b := by
    rw [rotateRight_rotateRight, rotateRight_add_64 _ 0, rotateRight_zero]
  rw [wordHash_append, wordHash_append, wordHash_singleton, wordHash_singleton, hv, List.length_singleton,
    rotateRight_xor, hfull, ← ror1_eq_rotateRight, BitVec.xor_assoc, BitVec.xor_assoc,
    BitVec.xor_comm (ror1 _)]

/-- The hash of a word depends on a part of it through the part's length and hash. -/
theorem wordHash_replace (t : Vector Word 256) {x y : List Byte} (hlen : x.length = y.length)
    (hhash : wordHash t x = wordHash t y) (u z : List Byte) :
    wordHash t (u ++ x ++ z) = wordHash t (u ++ y ++ z) := by
  rw [wordHash_append, wordHash_append, wordHash_append t (u ++ y), wordHash_append t u y, hlen, hhash]

theorem wordHash_exchange (t : Vector Word 256) (u z : List Byte) {v : List Byte} (hv : v.length = 63) (b c : Byte) :
    wordHash t (u ++ [b] ++ v ++ [c] ++ z) = wordHash t (u ++ [c] ++ v ++ [b] ++ z) := by
  have hswap : wordHash t ([b] ++ v ++ [c]) = wordHash t ([c] ++ v ++ [b]) := by
    rw [wordHash_around t hv, wordHash_around t hv, BitVec.xor_comm (tableEntry t b)]
  simpa only [List.append_assoc] using wordHash_replace t (by simp) hswap u z

/-- Settles O34: the closed form by induction on the word, the exchange by `wordHash_around`. -/
theorem hashClosedForm : Obligations.HashClosedForm := by
  unfold Obligations.HashClosedForm
  intro t
  refine ⟨wordHash_closedForm t, wordHash_singleton t, fun b c => ?_,
    fun u v z b c hv => wordHash_exchange t u z hv b c⟩
  rw [wordHash_cons, wordHash_singleton, ror1_eq_rotateRight, List.length_singleton]

/-! ### The outcomes of INSERT -/

/-- A range outside TXT is an OperandError (R170). -/
theorem exec_insert_of_outside {s : State} (hp : s.phase = .ready)
    (h : s.params.txtBytes < s.arg0.toNat ∨ s.params.txtBytes - s.arg0.toNat < s.arg1.toNat) :
    exec .insert s = .next { s with errcode := .operandError, response := some .okay } := by
  have hout : s.inRange s.arg0 s.arg1 = false := by
    rw [Bool.eq_false_iff, ne_eq, State.inRange_iff]
    omega
  exact (if_neg (not_not.2 hp)).trans (if_pos hout)

/-- Settles O38: one equation per outcome of INSERT. -/
theorem insertFailures : Obligations.InsertFailures := by
  unfold Obligations.InsertFailures
  intro s
  exact ⟨exec_insert_of_not_ready, exec_insert_of_outside, fun hp h0 h1 => ⟨_, execInsert_of_inRange hp h0 h1, rfl⟩⟩

/-! ### How many slots a word has -/

theorem insertSlots_length (t : Vector Word 256) (mask : Word) (w : List Byte) :
    (insertSlots t mask w).length = w.length + 1 := by
  simp [insertSlots]

theorem terminatorSlot_mem_insertSlots (t : Vector Word 256) (mask : Word) (w : List Byte) :
    terminatorSlot mask (wordHash t w) ∈ insertSlots t mask w :=
  List.mem_append_right _ (List.mem_singleton_self _)

/-- The last byte of a nonempty word sets the slot of the whole word's hash. -/
theorem prefixSlot_mem_insertSlots (t : Vector Word 256) (mask : Word) {w : List Byte} (hw : 1 ≤ w.length) :
    prefixSlot mask (wordHash t w) ∈ insertSlots t mask w := by
  have hlast : w.take (w.length - 1 + 1) = w := by rw [Nat.sub_add_cancel hw, List.take_length]
  refine List.mem_append_left _ (List.mem_map.2 ⟨w.length - 1, List.mem_range.2 (by omega), ?_⟩)
  rw [hlast]

/-- The empty word has the terminator slot only. -/
theorem insertSlots_card_of_empty (t : Vector Word 256) (mask : Word) {w : List Byte} (hw : w.length = 0) :
    (insertSlots t mask w).toFinset.card = 1 := by
  rw [List.length_eq_zero_iff.1 hw]
  rfl

/-- The last byte and the terminator of a nonempty word set two slots, which differ in a live index. -/
theorem two_le_insertSlots_card {s : State} (hl : s.IndexLegal) (hp : s.phase ≠ .empty) {w : List Byte}
    (hw : 1 ≤ w.length) : 2 ≤ (insertSlots s.table s.mask w).toFinset.card :=
  Finset.one_lt_card.2 ⟨_, List.mem_toFinset.2 (terminatorSlot_mem_insertSlots s.table s.mask w), _,
    List.mem_toFinset.2 (prefixSlot_mem_insertSlots s.table s.mask hw), terminatorSlot_ne_prefixSlot hl hp _⟩

theorem insertSlots_card_le (t : Vector Word 256) (mask : Word) (w : List Byte) :
    (insertSlots t mask w).toFinset.card ≤ w.length + 1 :=
  (List.toFinset_card_le _).trans_eq (insertSlots_length t mask w)

/-! ### The effect of INSERT -/

@[simp] theorem State.insertWord_scS (base len : Nat) (s : State) : (s.insertWord base len).scS = 0#64 := by
  rw [State.insertWord_eq]

/-- What INSERT changes after its checks: the bit array, RET_HASH, ERRCODE, the answer and the working registers. -/
theorem State.endCommand_insertWord_eq (base : Nat) (len : Word) (s : State) :
    State.endCommand .ok (s.insertWord base len.toNat) =
      { s with
        bits := (s.insertWord base len.toNat).bits
        retHash := wordHash s.table (s.textBytes base len.toNat)
        errcode := .ok
        response := some .okay
        scH := (s.insertWord base len.toNat).scH
        scS := (s.insertWord base len.toNat).scS
        scLen := (s.insertWord base len.toNat).scLen } := by
  rw [← (State.insertWord_hash base len.toNat s len.isLt).1, State.insertWord_scS]
  conv_lhs => rw [State.insertWord_eq]
  rfl

/-- INSERT writes no word outside a live index: every slot it sets is a masked one. -/
theorem State.insertWord_bitsWord_of_outside {s : State} (hl : s.IndexLegal) (hp : s.phase ≠ .empty)
    (base len : Nat) {x : Nat} (hx : s.capbits.toNat / 64 ≤ x) :
    (s.insertWord base len).bitsWord x = s.bitsWord x :=
  (State.insertWord_bits base len s (· < s.capbits.toNat / 64) (slot_inside hl hp)).1 x (not_lt.2 hx)

/-- Settles O37, from the loop's laws (`State.insertWord_testBit`, `State.insertWord_bits`) and the count of slots. -/
theorem insertOrsTheSlotsOfTheWord : Obligations.InsertOrsTheSlotsOfTheWord := by
  unfold Obligations.InsertOrsTheSlotsOfTheWord
  intro s hl hready h0 h1 w slots
  have hp : s.phase ≠ .empty := by simp [hready]
  refine ⟨_, execInsert_of_inRange hready h0 h1, State.endCommand_insertWord_eq _ _ s, fun p => ?testBit,
    fun x hx => State.insertWord_bitsWord_of_outside hl hp _ _ hx, insertSlots_card_of_empty s.table s.mask,
    fun hw => ⟨two_le_insertSlots_card hl hp hw, insertSlots_card_le s.table s.mask w⟩⟩
  case testBit =>
    rw [State.testBit_congr (State.endCommand_bits _ _), State.insertWord_testBit _ _ _ s.arg1.isLt,
      Bool.or_eq_true_iff, decide_eq_true_iff]

end Sys2Proof.Machine
end

section
/-! The family of spec/43_search.md: the outcomes of SEARCH (R194, R108) and what its result depends on (R191). -/

namespace Sys2Proof.Machine

/-! ### The outcomes of SEARCH -/

/-- A range outside TXT or a bound outside 1 to RES_ENTRIES is an OperandError (R194, R108). -/
theorem exec_search_of_illegal {s : State} (hp : s.phase = .ready)
    (h : s.params.txtBytes < s.arg0.toNat ∨ s.params.txtBytes - s.arg0.toNat < s.arg1.toNat
      ∨ s.arg2 = 0#64 ∨ s.params.resEntries < s.arg2.toNat) :
    exec .search s = .next { s with errcode := .operandError, response := some .okay } := by
  rcases execSearch_cases s with ⟨hnot, -⟩ | ⟨-, -, e⟩ | ⟨-, hrange, hbound, -⟩
  · exact absurd hp hnot
  · exact e
  · obtain ⟨h0, h1⟩ := (State.inRange_iff s s.arg0 s.arg1).1 hrange
    obtain ⟨h2, h3⟩ := (State.legalBound_iff s s.arg2).1 hbound
    rcases h with h | h | h | h
    · exact absurd h0 (not_le.2 h)
    · exact absurd h1 (not_le.2 h)
    · exact absurd h h2
    · exact absurd h3 (not_le.2 h)

/-- Settles O42: one equation per outcome of SEARCH; a success without a candidate counts no record. -/
theorem searchFailures : Obligations.SearchFailures := by
  unfold Obligations.SearchFailures
  intro s
  refine ⟨exec_search_of_not_ready, exec_search_of_illegal, fun hp h0 h1 hne h3 => ?_⟩
  have hbound := (State.legalBound_iff s s.arg2).2 ⟨hne, h3⟩
  obtain ⟨h2, -⟩ := (State.legalBound_iff_le s s.arg2).1 hbound
  exact ⟨_, execSearch_of_legal hp h0 h1 h2 h3, rfl, State.searchText_rcount_of_no_candidates h2⟩

/-! ### What the result of SEARCH depends on -/

/-- Which spans are candidates depends on what `testBit` answers, not on the list of stored words. -/
theorem State.isCandidate_congr_testBit {s u : State} (ht : u.table = s.table) (hm : u.mask = s.mask)
    (hb : ∀ p : Word, u.testBit p = s.testBit p) (text : List Byte) (start l : Nat) :
    u.isCandidate text start l = s.isCandidate text start l := by
  simp only [State.isCandidate, ht, hm, hb]

theorem State.candidates_congr_testBit {s u : State} (ht : u.table = s.table) (hm : u.mask = s.mask)
    (hb : ∀ p : Word, u.testBit p = s.testBit p) (text : List Byte) : u.candidates text = s.candidates text := by
  simp only [State.candidates, State.isCandidate_congr_testBit ht hm hb]

/-- RCOUNT is the number of the records the host can read. -/
theorem State.records_length (s : State) : s.records.length = s.rcount.toNat := by
  simp [State.records]

theorem State.rcount_eq_of_records_eq {s u : State} (h : u.records = s.records) : u.rcount = s.rcount :=
  BitVec.eq_of_toNat_eq (by rw [← State.records_length, h, State.records_length])

/-- Equal table, mask, bits and text bytes give equal records, wherever the text stands and whatever RES held. -/
theorem State.searchText_records_congr {s u : State} (ht : u.table = s.table) (hm : u.mask = s.mask)
    (hb : ∀ p : Word, u.testBit p = s.testBit p) {base base' : Nat} {len len' max : Word} (hmax : 1 ≤ max.toNat)
    (htext : u.textBytes base' len'.toNat = s.textBytes base len.toNat) :
    (u.searchText base' len'.toNat max).records = (s.searchText base len.toNat max).records := by
  obtain ⟨hs, -, -⟩ := State.searchText_spec base len.toNat max s len.isLt hmax
  obtain ⟨hu, -, -⟩ := State.searchText_spec base' len'.toNat max u len'.isLt hmax
  rw [hs, hu, htext, State.candidates_congr_testBit ht hm hb]
  simp only [State.candidateRecord_congr ht]

/-- Settles O43: both searches succeed, their records agree (`State.searchText_records_congr`), and SEARCH has no
write to BITS. -/
theorem searchIsPure : Obligations.SearchIsPure := by
  unfold Obligations.SearchIsPure
  intro s s' hp hp' h0 h1 h0' h1' h2 h3 h3' ht hm hb hmax htext
  have hrecords := State.searchText_records_congr ht hm hb h2 htext
  have h2' : 1 ≤ s'.arg2.toNat := hmax ▸ h2
  refine ⟨_, _, execSearch_of_legal hp h0 h1 h2 h3, execSearch_of_legal hp' h0' h1' h2' h3', ?_⟩
  rw [hmax]
  exact ⟨State.rcount_eq_of_records_eq hrecords, hrecords, State.searchText_bits .., State.searchText_bits ..⟩

end Sys2Proof.Machine
end

section
/-! The family of spec/60_exceptions.md: the port faults P1 to P9 (R67, R206, R207), the order of a command's checks
(R212), and what a failed command changes (R213). -/

namespace Sys2Proof.Machine

/-! ### Failed commands -/

/-- A command either raises an error, which ends it in the state it started from, or succeeds. -/
theorem exec_command_cases (c : Command) (s : State) :
    (∃ e, exec c.instr s = .next (s.endCommand e)) ∨ ∃ u : State, exec c.instr s = .next (u.endCommand .ok) := by
  cases c with
  | alloc =>
    rcases execAlloc_cases s with ⟨-, e⟩ | ⟨-, -, e⟩ | ⟨-, -, -, e⟩ | ⟨-, -, -, e⟩
    · exact .inl ⟨_, e⟩
    · exact .inl ⟨_, e⟩
    · exact .inl ⟨_, e⟩
    · exact .inr ⟨_, e⟩
  | init =>
    rcases execInit_cases s with ⟨-, e⟩ | ⟨-, e⟩
    · exact .inl ⟨_, e⟩
    · exact .inr ⟨_, e⟩
  | insert =>
    rcases execInsert_cases s with ⟨-, e⟩ | ⟨-, -, e⟩ | ⟨-, -, e⟩
    · exact .inl ⟨_, e⟩
    · exact .inl ⟨_, e⟩
    · exact .inr ⟨_, e⟩
  | search =>
    rcases execSearch_cases s with ⟨-, e⟩ | ⟨-, -, e⟩ | ⟨-, -, -, e⟩
    · exact .inl ⟨_, e⟩
    · exact .inl ⟨_, e⟩
    · exact .inr ⟨_, e⟩
  | release =>
    rcases execRelease_cases s with ⟨-, e⟩ | ⟨-, e⟩
    · exact .inl ⟨_, e⟩
    · exact .inr ⟨_, e⟩

/-- Errors are precise (R213): a command is answered OKAY, and one that fails changes ERRCODE only. -/
theorem exec_command_precise (c : Command) (s : State) :
    ∃ t, exec c.instr s = .next t ∧ t.response = some .okay
      ∧ (t.errcode ≠ .ok → t = { s with errcode := t.errcode, response := some .okay }) := by
  rcases exec_command_cases c s with ⟨code, e⟩ | ⟨u, e⟩
  · exact ⟨_, e, rfl, fun _ => rfl⟩
  · exact ⟨_, e, rfl, fun hfail => absurd rfl hfail⟩

/-- Settles O23: a word that is no command raises IllegalCommand, and the commands are precise. -/
theorem failedCommandChangesOnlyErrcode : Obligations.FailedCommandChangesOnlyErrcode := by
  unfold Obligations.FailedCommandChangesOnlyErrcode
  intro s cw
  cases hcw : decodeCommand cw with
  | none => exact ⟨_, exec_wrreg_illegal hcw s, rfl, fun _ => rfl⟩
  | some c =>
    obtain rfl : cw = encodeCommand c := decodeCommand_eq_some hcw
    rw [exec_wrreg_encodeCommand]
    exact exec_command_precise c s

/-! ### The first failing check -/

/-- The outcome in ERRCODE, read off an equation for the same execution. -/
theorem errcode_of_next {o : Host.Outcome State Fault Refusal} {t u : State} {code : ErrCode} (e : o = .next t)
    (e' : o = .next u) (hcode : u.errcode = code) : t.errcode = code := by
  cases e.symm.trans e'
  exact hcode

/-- Settles O24: every command is precise, and its outcome is read off the equation of each of its checks. -/
theorem firstFailingCheckIsReported : Obligations.FirstFailingCheckIsReported := by
  unfold Obligations.FirstFailingCheckIsReported
  intro s
  refine ⟨fun cw hcw => exec_wrreg_illegal hcw s, ?alloc, ?init, ?insert, ?search, ?release⟩
  case alloc =>
    obtain ⟨t, e, -, hprecise⟩ := exec_command_precise .alloc s
    refine ⟨t, e, hprecise, fun hp => errcode_of_next e (exec_alloc_of_live hp) rfl, fun hp hc => ?_,
      fun hp hc hbig => errcode_of_next e (exec_alloc_of_tooLarge hp ((legalCap_iff _).2 hc) hbig) rfl,
      fun hp hc hfit => errcode_of_next e (exec_alloc_of_fits hp ((legalCap_iff _).2 hc) hfit) rfl⟩
    have hillegal : legalCap s.arg0 = false := Bool.eq_false_iff.2 (mt (legalCap_iff _).1 hc)
    exact errcode_of_next e (exec_alloc_of_illegal hp hillegal) rfl
  case init =>
    obtain ⟨t, e, -, hprecise⟩ := exec_command_precise .init s
    exact ⟨t, e, hprecise, fun hp => errcode_of_next e (exec_init_of_not_allocated hp) rfl,
      fun hp => errcode_of_next e (exec_init_of_allocated hp) rfl⟩
  case insert =>
    obtain ⟨t, e, -, hprecise⟩ := exec_command_precise .insert s
    exact ⟨t, e, hprecise, fun hp => errcode_of_next e (exec_insert_of_not_ready hp) rfl,
      fun hp hrange => errcode_of_next e (exec_insert_of_outside hp (by omega)) rfl,
      fun hp h0 h1 => errcode_of_next e (execInsert_of_inRange hp h0 h1) rfl⟩
  case search =>
    obtain ⟨t, e, -, hprecise⟩ := exec_command_precise .search s
    refine ⟨t, e, hprecise, fun hp => errcode_of_next e (exec_search_of_not_ready hp) rfl, fun hp hlegal => ?_,
      fun hp h0 h1 h2 h3 => errcode_of_next e (execSearch_of_legal hp h0 h1 h2 h3) rfl⟩
    have hzero : s.arg2 = 0#64 ↔ s.arg2.toNat = 0 := BitVec.toNat_inj.symm
    exact errcode_of_next e (exec_search_of_illegal hp (by rw [hzero]; omega)) rfl
  case release =>
    obtain ⟨t, e, -, hprecise⟩ := exec_command_precise .release s
    exact ⟨t, e, hprecise, fun hp => errcode_of_next e (exec_release_of_empty hp) rfl,
      fun hp => errcode_of_next e (exec_release_of_live hp) rfl⟩

/-! ### The conditions P1 to P9 exclude each other -/

/-- The one condition of R207 that a transaction's space, direction and address do not rule out: the memories and
registers only decide whether it holds. -/
def openCondition (t : Transaction) : Nat :=
  match t.space.toNat with
  | 0 => if 14 ≤ t.addr.toNat then 2 else if t.we then 4 else 3
  | 1 => 5
  | 2 => if t.we then 6 else 7
  | 3 => if t.we then 6 else 8
  | 4 => if t.we then 6 else 9
  | _ => 1

theorem openCondition_of_reserved {t : Transaction} (h : 5 ≤ t.space.toNat) : openCondition t = 1 := by
  unfold openCondition
  split <;> omega

theorem State.PortCondition.eq_openCondition {s : State} {t : Transaction} {n : Nat} (h : s.PortCondition t n) :
    n = openCondition t := by
  match n with
  | 0 => exact h.elim
  | 1 => exact (openCondition_of_reserved h).symm
  | 2 =>
    obtain ⟨hs, ha⟩ := h
    simp [openCondition, hs, ha]
  | 3 =>
    obtain ⟨hs, hw, ha⟩ := h
    simp [openCondition, hs, hw, ha]
  | 4 =>
    obtain ⟨hs, hw, -, ha⟩ := h
    simp [openCondition, hs, hw, show ¬ 14 ≤ t.addr.toNat by omega]
  | 5 =>
    obtain ⟨hs, -⟩ := h
    simp [openCondition, hs]
  | 6 =>
    obtain ⟨hs | hs | hs, hw⟩ := h <;> simp [openCondition, hs, hw]
  | 7 =>
    obtain ⟨hs, hw, -⟩ := h
    simp [openCondition, hs, hw]
  | 8 =>
    obtain ⟨hs, hw, -⟩ := h
    simp [openCondition, hs, hw]
  | 9 =>
    obtain ⟨hs, hw, -⟩ := h
    simp [openCondition, hs, hw]
  | _ + 10 => exact h.elim

/-! ### The port faults of each kind of transaction (R207) -/

section
variable {s : State} {t : Transaction}

theorem State.portFaults_rdreg_iff (hs : t.space = 0#3) (hw : t.we = false) :
    s.PortFaults t ↔ t.addr.toNat = 0 ∨ 14 ≤ t.addr.toNat := by
  have hzero : t.addr = 0#64 ↔ t.addr.toNat = 0 := BitVec.toNat_inj.symm
  simp [State.portFaults_iff, hs, hw, hzero, or_comm]

theorem State.portFaults_wrreg_iff (hs : t.space = 0#3) (hw : t.we = true) :
    s.PortFaults t ↔ 4 ≤ t.addr.toNat := by
  have hspan : (14 ≤ t.addr.toNat ∨ 4 ≤ t.addr.toNat ∧ t.addr.toNat ≤ 13) ↔ 4 ≤ t.addr.toNat := by omega
  simpa [State.portFaults_iff, hs, hw] using hspan

theorem State.portFaults_text_iff (hs : t.space = 1#3) : s.PortFaults t ↔ s.params.txtBytes ≤ t.addr.toNat := by
  simp [State.portFaults_iff, hs]

theorem State.portFaults_rdres_iff (hs : t.space = 2#3) (hw : t.we = false) :
    s.PortFaults t ↔ s.rcount.toNat ≤ t.addr.toNat / 4 := by
  simp [State.portFaults_iff, hs, hw]

theorem State.portFaults_rdbits_iff (hs : t.space = 3#3) (hw : t.we = false) :
    s.PortFaults t ↔ s.phase = .empty ∨ s.capbits.toNat / 64 ≤ t.addr.toNat := by
  simp [State.portFaults_iff, hs, hw]

theorem State.portFaults_rdtab_iff (hs : t.space = 4#3) (hw : t.we = false) :
    s.PortFaults t ↔ s.phase ≠ .ready ∨ 256 ≤ t.addr.toNat := by
  simp [State.portFaults_iff, hs, hw]

end

/-! ### Where a window has nothing to read -/

theorem State.readText_eq_none_iff (s : State) (addr : Word) :
    s.readText addr = none ↔ s.params.txtBytes ≤ addr.toNat := by
  simp [State.readText]

theorem State.readRecord_eq_none_iff (s : State) (addr : Word) :
    s.readRecord addr = none ↔ s.rcount.toNat ≤ addr.toNat / 4 := by
  simp [State.readRecord, recordIndex_eq]

theorem State.readBits_eq_none_iff (s : State) (addr : Word) :
    s.readBits addr = none ↔ s.phase = .empty ∨ s.capbits.toNat / 64 ≤ addr.toNat := by
  simp [State.readBits, imp_iff_not_or]

theorem State.readTable_eq_none_iff (s : State) (addr : Word) :
    s.readTable addr = none ↔ s.phase ≠ .ready ∨ 256 ≤ addr.toNat := by
  simp [State.readTable, imp_iff_not_or, Nat.succ_le_iff]

/-! ### The answer to a transaction -/

/-- R67 and R207 as a claim on what a transaction `t` presented in `s` leads to: under one of P1 to P9 the answer is
FAULT and nothing else changes; otherwise a write is answered OKAY and a read OKAY with data. -/
def AnsweredByR207 (t : Transaction) (s : State) (o : Host.Outcome State Fault Refusal) : Prop :=
  (s.PortFaults t ∧ o = .next { s with response := some .fault })
  ∨ (¬ s.PortFaults t ∧ ∃ u, o = .next u
      ∧ ((t.we = true ∧ u.response = some .okay) ∨ (t.we = false ∧ ∃ v, u.response = some (.okayData v))))

section
variable {s : State} {t : Transaction}

/-- A read with nothing to read exactly where it is a port fault. -/
theorem AnsweredByR207.of_read {v : Option Word} (hw : t.we = false) (h : v = none ↔ s.PortFaults t) :
    AnsweredByR207 t s (.next (s.answerRead v)) := by
  cases v with
  | none => exact .inl ⟨h.1 rfl, rfl⟩
  | some v => exact .inr ⟨mt h.2 (Option.some_ne_none v), _, rfl, .inr ⟨hw, v, rfl⟩⟩

theorem AnsweredByR207.of_okay {u : State} {o : Host.Outcome State Fault Refusal} (hw : t.we = true)
    (hok : ¬ s.PortFaults t) (e : o = .next u) (hu : u.response = some .okay) : AnsweredByR207 t s o :=
  .inr ⟨hok, u, e, .inl ⟨hw, hu⟩⟩

/-- A write to a register other than CMD. -/
theorem exec_wrreg_answered (hs : t.space = 0#3) (hw : t.we = true) (ha : t.addr ≠ 0#64) :
    AnsweredByR207 t s (exec (.wrreg t.addr t.wdata) s) := by
  have hfaults : s.PortFaults t ↔ 4 ≤ t.addr.toNat := State.portFaults_wrreg_iff hs hw
  by_cases h4 : 4 ≤ t.addr.toNat
  · exact .inl ⟨hfaults.2 h4, exec_wrreg_of_none ha (State.writeRegister_eq_none h4 _ s)⟩
  · obtain ⟨u, hu⟩ : ∃ u, s.writeRegister t.addr t.wdata = some u := by
      have hne : t.addr.toNat ≠ 0 := BitVec.toNat_ne.1 ha
      rcases State.writeRegister_cases t.addr t.wdata s with ⟨-, e⟩ | ⟨-, e⟩ | ⟨-, e⟩ | ⟨h, -⟩
      · exact ⟨_, e⟩
      · exact ⟨_, e⟩
      · exact ⟨_, e⟩
      · omega
    exact .of_okay hw (mt hfaults.1 h4) (exec_wrreg_of_some ha hu) rfl

/-- A register access, CMD writes included. -/
theorem exec_decodeReg_answered (hs : t.space = 0#3) :
    AnsweredByR207 t s (exec (decodeReg t.we t.addr t.wdata) s) := by
  have cmdOkay (hw : t.we = true) (ha : t.addr = 0#64) : ¬ s.PortFaults t := by
    simp [State.portFaults_wrreg_iff hs hw, ha]
  rcases decodeReg_cases t.we t.addr t.wdata with ⟨hw, e⟩ | ⟨hw, ha, c, -, e⟩ | ⟨hw, ha, hcw, e⟩ | ⟨hw, ha, e⟩
  · rw [e]
    exact .of_read hw ((State.readRegister_eq_none_iff t.addr s).trans (State.portFaults_rdreg_iff hs hw).symm)
  · rw [e]
    obtain ⟨u, hu, hokay, -⟩ := exec_command_precise c s
    exact .of_okay hw (cmdOkay hw ha) hu hokay
  · rw [e, ha]
    exact .of_okay hw (cmdOkay hw ha) (exec_wrreg_illegal hcw s) rfl
  · rw [e]
    exact exec_wrreg_answered hs hw ha

theorem exec_wrtxt_answered (hs : t.space = 1#3) (hw : t.we = true) :
    AnsweredByR207 t s (exec (.wrtxt t.addr t.wdata) s) := by
  have hfaults : s.PortFaults t ↔ s.params.txtBytes ≤ t.addr.toNat := State.portFaults_text_iff hs
  rcases Nat.lt_or_ge t.addr.toNat s.params.txtBytes with h | h
  · exact .of_okay hw (mt hfaults.1 (not_le.2 h)) (exec_wrtxt_of_lt h t.wdata) rfl
  · exact .inl ⟨hfaults.2 h, exec_wrtxt_of_ge h t.wdata⟩

end

/-- Every transaction is answered as R67 and R207 say, whatever the decoder makes of it. -/
theorem execTransaction_answered (t : Transaction) (s : State) : AnsweredByR207 t s (execTransaction t s) := by
  have run {i : Instr} (hd : decode t = .ok i) (h : AnsweredByR207 t s (exec i s)) :
      AnsweredByR207 t s (execTransaction t s) := by
    unfold execTransaction
    rw [hd]
    exact h
  rcases decode_cases t with ⟨hs, hd⟩ | ⟨hs, hw, hd⟩ | ⟨hs, hw, hd⟩ | ⟨hs, hw, hd⟩ | ⟨hs, hw, hd⟩ | ⟨hs, hw, hd⟩
    | ⟨hs, hw, -⟩ | ⟨hs, -⟩
  · exact run hd (exec_decodeReg_answered hs)
  · exact run hd (exec_wrtxt_answered hs hw)
  · exact run hd (.of_read hw ((s.readText_eq_none_iff t.addr).trans (State.portFaults_text_iff hs).symm))
  · exact run hd (.of_read hw ((s.readRecord_eq_none_iff t.addr).trans (State.portFaults_rdres_iff hs hw).symm))
  · exact run hd (.of_read hw ((s.readBits_eq_none_iff t.addr).trans (State.portFaults_rdbits_iff hs hw).symm))
  · exact run hd (.of_read hw ((s.readTable_eq_none_iff t.addr).trans (State.portFaults_rdtab_iff hs hw).symm))
  · have hspace : 2 ≤ t.space.toNat ∧ t.space.toNat ≤ 4 := by rcases hs with h | h | h <;> simp [h]
    exact .inl ⟨⟨6, hs, hw⟩, execTransaction_rejected (.inr ⟨hw, hspace⟩) s⟩
  · exact .inl ⟨⟨1, hs⟩, execTransaction_rejected (.inl hs) s⟩

/-- Settles O12: a condition that holds is `openCondition`, and the step answers as `execTransaction_answered` says. -/
theorem portFaultsExactlyP1ToP9 : Obligations.PortFaultsExactlyP1ToP9 := by
  unfold Obligations.PortFaultsExactlyP1ToP9
  refine ⟨fun s t m n hm hn => hm.eq_openCondition.trans hn.eq_openCondition.symm, fun s t rest hpend => ?_⟩
  rw [step_transaction hpend]
  have hsame : State.PortFaults { s with pending := rest } t ↔ s.PortFaults t := Iff.rfl
  rcases execTransaction_answered t { s with pending := rest } with
    ⟨hf, e⟩ | ⟨hok, u, e, ⟨hw, hr⟩ | ⟨hw, v, hr⟩⟩
  · rw [hsame] at hf
    exact ⟨_, e, iff_of_true rfl hf, fun _ => rfl, fun hno => absurd hf hno, fun hno => absurd hf hno⟩
  · rw [hsame] at hok
    exact ⟨u, e, iff_of_false (by simp [hr]) hok, fun hf => absurd hf hok, fun _ _ => hr, fun _ => by simp [hw]⟩
  · rw [hsame] at hok
    exact ⟨u, e, iff_of_false (by simp [hr]) hok, fun hf => absurd hf hok, fun _ => by simp [hw],
      fun _ _ => ⟨v, hr⟩⟩

end Sys2Proof.Machine
end

section
/-! The encoding as a whole (spec/30_encoding.md R100, R102, R110): decoding inverts encoding, and what the decoder
reads is the transaction it was read from. -/

namespace Sys2Proof

/-- A register write is well formed where it is no CMD write of a command word. -/
theorem Instr.wf_wrreg_iff (addr wdata : Word) :
    (Instr.wrreg addr wdata).wf = true ↔ (addr = 0#64 → decodeCommand wdata = none) := by
  have hlegal : decodeCommand wdata = none ↔ ¬ (1 ≤ wdata.toNat ∧ wdata.toNat ≤ 5) := by
    rw [decodeCommand_eq_none_iff]
    omega
  rw [hlegal]
  simp [Instr.wf, imp_iff_not_or, or_assoc]

theorem Command.wf_instr (c : Command) : c.instr.wf = true := by
  cases c <;> rfl

theorem encode_command (c : Command) : encode c.instr = .command (encodeCommand c) := by
  cases c <;> rfl

theorem decodeReg_encodeCommand (c : Command) : decodeReg true 0#64 (encodeCommand c) = c.instr := by
  simp [decodeReg, decodeCommand_encodeCommand]

theorem decodeReg_of_wf {addr wdata : Word} (h : (Instr.wrreg addr wdata).wf = true) :
    decodeReg true addr wdata = .wrreg addr wdata := by
  rw [Instr.wf_wrreg_iff] at h
  by_cases ha : addr = 0#64
  · simp [decodeReg, ha, h ha]
  · simp [decodeReg, ha]

theorem decode_encode_command (c : Command) : decode (encode c.instr) = .ok c.instr := by
  rw [encode_command, ← decodeReg_encodeCommand c]
  rfl

/-- Settles O1: only a register write needs its well-formedness, which keeps it from being a command. -/
theorem decodeOfEncodeIsIdentity : Obligations.DecodeOfEncodeIsIdentity := by
  unfold Obligations.DecodeOfEncodeIsIdentity
  intro i hwf
  cases i with
  | alloc => exact decode_encode_command .alloc
  | init => exact decode_encode_command .init
  | insert => exact decode_encode_command .insert
  | search => exact decode_encode_command .search
  | release => exact decode_encode_command .release
  | wrreg addr wdata => exact congrArg Decoded.ok (decodeReg_of_wf hwf)
  | rdreg | rdtxt | wrtxt | rdres | rdbits | rdtab => rfl

/-- Whether an instruction is well formed and stands for a transaction `t`, the data of a read aside. -/
def IsReadFrom (t : Transaction) (i : Instr) : Prop :=
  i.wf = true ∧ (encode i).we = t.we ∧ (encode i).space = t.space ∧ (encode i).addr = t.addr
    ∧ (t.we = true → (encode i).wdata = t.wdata)

theorem isReadFrom_decodeReg {t : Transaction} (hs : t.space = 0#3) :
    IsReadFrom t (decodeReg t.we t.addr t.wdata) := by
  rcases decodeReg_cases t.we t.addr t.wdata with ⟨hw, e⟩ | ⟨hw, ha, c, hc, e⟩ | ⟨hw, ha, hn, e⟩ | ⟨hw, ha, e⟩
  · rw [e]
    exact ⟨rfl, hw.symm, hs.symm, rfl, by simp [hw]⟩
  · rw [e, IsReadFrom, encode_command]
    exact ⟨c.wf_instr, hw.symm, hs.symm, ha.symm, fun _ => hc.symm⟩
  · rw [e]
    exact ⟨(Instr.wf_wrreg_iff _ _).2 fun _ => hn, hw.symm, hs.symm, rfl, fun _ => rfl⟩
  · rw [e]
    exact ⟨(Instr.wf_wrreg_iff _ _).2 fun h => absurd h ha, hw.symm, hs.symm, rfl, fun _ => rfl⟩

theorem isReadFrom_of_decode {t : Transaction} {i : Instr} (h : decode t = .ok i) : IsReadFrom t i := by
  rcases decode_cases t with ⟨hs, e⟩ | ⟨hs, hw, e⟩ | ⟨hs, hw, e⟩ | ⟨hs, hw, e⟩ | ⟨hs, hw, e⟩ | ⟨hs, hw, e⟩
    | ⟨-, -, e⟩ | ⟨-, e⟩ <;> rw [e] at h <;> cases h
  · exact isReadFrom_decodeReg hs
  · exact ⟨rfl, hw.symm, hs.symm, rfl, fun _ => rfl⟩
  all_goals exact ⟨rfl, hw.symm, hs.symm, rfl, by simp [hw]⟩

/-- Settles O2. -/
theorem decodedTermIsItsTransaction : Obligations.DecodedTermIsItsTransaction := by
  unfold Obligations.DecodedTermIsItsTransaction
  exact fun _ _ => isReadFrom_of_decode

/-- Settles O4, word by word. -/
theorem writtenOutWordsDecode : Obligations.WrittenOutWordsDecode := by
  unfold Obligations.WrittenOutWordsDecode
  exact ⟨decode_encode_command .alloc, decode_encode_command .init, decode_encode_command .insert,
    decode_encode_command .search, decode_encode_command .release, rfl, rfl, rfl, rfl, rfl, rfl, rfl, rfl, rfl⟩

end Sys2Proof
end

section
/-! The step (spec/20_memory.md R60, R72, spec/10_state.md R39): it always answers a next state, what it never
changes, and which instruction writes what. -/

namespace Sys2Proof.Machine

theorem execTransaction_of_decode {t : Transaction} {i : Instr} (h : decode t = .ok i) (s : State) :
    execTransaction t s = exec i s := by
  unfold execTransaction
  rw [h]

/-- Settles O5. -/
theorem stepRunsTheDecodedInstruction : Obligations.StepRunsTheDecodedInstruction := by
  unfold Obligations.StepRunsTheDecodedInstruction
  intro s t rest i hpend hd
  obtain ⟨hwf, -⟩ := isReadFrom_of_decode hd
  exact ⟨hwf, (step_transaction hpend).trans (execTransaction_of_decode hd _)⟩

/-! ### Every step answers a next state -/

theorem execTransaction_next (t : Transaction) (s : State) : ∃ u, execTransaction t s = .next u := by
  rcases execTransaction_answered t s with ⟨-, e⟩ | ⟨-, u, e, -⟩
  · exact ⟨_, e⟩
  · exact ⟨u, e⟩

/-- Settles O8: the step is idle, a reset, or a transaction, which is always answered. -/
theorem everyStepAnswersNext : Obligations.EveryStepAnswersNext := by
  unfold Obligations.EveryStepAnswersNext
  intro s
  match hpend : s.pending with
  | [] => exact ⟨s, step_idle hpend⟩
  | .reset :: rest => exact ⟨_, step_reset hpend⟩
  | .transaction t :: rest =>
    rw [step_transaction hpend]
    exact execTransaction_next t _

/-! ### The parameters -/

theorem execTransaction_params {t : Transaction} {s u : State} (e : execTransaction t s = .next u) :
    u.params = s.params := by
  rcases execTransaction_cases t s u e with ⟨r, rfl⟩ | ⟨v, -, rfl⟩ | ⟨v, -, rfl⟩ | ⟨v, -, rfl⟩ | ⟨a, v, -, h⟩
    | ⟨-, -, -, ⟨c, rfl⟩ | ⟨-, h, hok⟩ | ⟨-, h, hok⟩ | ⟨-, h, hok⟩ | ⟨-, h, hok⟩ | ⟨-, h, hok⟩⟩
  · rfl
  · rfl
  · rfl
  · rfl
  · rw [h]
  · rfl
  · rw [(execAlloc_ok h hok).2]
    simp
  · rw [(execInit_ok h hok).2]
    simp
  · rw [(execInsert_ok h hok).2]
    simp
  · rw [(execSearch_ok h hok).2]
    simp
  · rw [(execRelease_ok h hok).2]
    simp

theorem step_params {s u : State} (e : step s = .next u) : u.params = s.params := by
  match hpend : s.pending with
  | [] =>
    rw [step_idle hpend] at e
    cases e
    rfl
  | .reset :: rest =>
    rw [step_reset hpend] at e
    cases e
    rfl
  | .transaction t :: rest =>
    rw [step_transaction hpend] at e
    exact (execTransaction_params e).trans rfl

/-- Registers 10 to 13 are computed from the parameters. -/
theorem State.readRegister_congr_params {s u : State} (h : u.params = s.params) {n : Word} (hlo : 10 ≤ n.toNat)
    (hhi : n.toNat ≤ 13) : u.readRegister n = s.readRegister n := by
  have hn : n = 10#64 ∨ n = 11#64 ∨ n = 12#64 ∨ n = 13#64 := by bv_omega
  obtain ⟨hs10, hs11, hs12, hs13⟩ := s.readRegister_constants
  obtain ⟨hu10, hu11, hu12, hu13⟩ := u.readRegister_constants
  rw [h] at hu10 hu11 hu12
  rcases hn with rfl | rfl | rfl | rfl
  · rw [hu10, hs10]
  · rw [hu11, hs11]
  · rw [hu12, hs12]
  · rw [hu13, hs13]

/-- Settles O11. -/
theorem stepKeepsParameters : Obligations.StepKeepsParameters := by
  unfold Obligations.StepKeepsParameters
  intro s u e
  exact ⟨step_params e, fun n => State.readRegister_congr_params (step_params e)⟩

/-! ### Reads -/

/-- Transaction `t` presented in `s` is answered `r` and changes nothing else, whatever the events still pending and
the answer before it. -/
def OnlyAnswers (t : Transaction) (s : State) (r : Response) : Prop :=
  ∀ pending response, execTransaction t { s with pending := pending, response := response }
    = .next { s with pending := pending, response := some r }

theorem OnlyAnswers.of_read {t : Transaction} {s : State} {i : Instr} (v : Option Word) (hd : decode t = .ok i)
    (h : ∀ pending response, exec i { s with pending := pending, response := response }
      = .next (State.answerRead v { s with pending := pending, response := response })) :
    OnlyAnswers t s ((v.map Response.okayData).getD .fault) := fun pending response => by
  rw [execTransaction_of_decode hd, h, State.answerRead_eq]

/-- What each window reads does not depend on the events pending or the last answer. -/
theorem exists_onlyAnswers_of_read {t : Transaction} (hw : t.we = false) (s : State) : ∃ r, OnlyAnswers t s r := by
  rcases decode_cases t with ⟨-, hd⟩ | ⟨-, hw', -⟩ | ⟨-, -, hd⟩ | ⟨-, -, hd⟩ | ⟨-, -, hd⟩ | ⟨-, -, hd⟩
    | ⟨-, hw', -⟩ | ⟨hs, -⟩
  · rw [hw] at hd
    exact ⟨_, .of_read (s.readRegister t.addr) hd fun _ _ => rfl⟩
  · exact absurd (hw.symm.trans hw') Bool.false_ne_true
  · exact ⟨_, .of_read (s.readText t.addr) hd fun _ _ => rfl⟩
  · exact ⟨_, .of_read (s.readRecord t.addr) hd fun _ _ => rfl⟩
  · exact ⟨_, .of_read (s.readBits t.addr) hd fun _ _ => rfl⟩
  · exact ⟨_, .of_read (s.readTable t.addr) hd fun _ _ => rfl⟩
  · exact absurd (hw.symm.trans hw') Bool.false_ne_true
  · exact ⟨.fault, fun _ _ => execTransaction_rejected (.inl hs) _⟩

/-- Settles O13: both reads are answered alike (`exists_onlyAnswers_of_read`). -/
theorem portReadsChangeNothing : Obligations.PortReadsChangeNothing := by
  unfold Obligations.PortReadsChangeNothing
  intro s t rest hw hpend
  obtain ⟨r, hr⟩ := exists_onlyAnswers_of_read hw s
  refine ⟨_, r, ?_, rfl, ?_⟩
  · rw [step_transaction hpend]
    exact hr _ s.response
  · rw [step_transaction rfl]
    exact hr _ _

/-! ### Who writes what -/

/-- Settles O14, by the case analysis of one transaction. -/
theorem stateChangesOnlyByItsWriters : Obligations.StateChangesOnlyByItsWriters := by
  unfold Obligations.StateChangesOnlyByItsWriters
  intro s u t rest hpend e
  rw [step_transaction hpend] at e
  rcases execTransaction_cases t _ u e with ⟨r, rfl⟩ | ⟨v, hd, rfl⟩ | ⟨v, hd, rfl⟩ | ⟨v, hd, rfl⟩ | ⟨a, v, hd, h⟩
    | ⟨hs, hw, ha, ⟨c, rfl⟩ | ⟨hd, h, hok⟩ | ⟨hd, h, hok⟩ | ⟨hd, h, hok⟩ | ⟨hd, h, hok⟩ | ⟨hd, h, hok⟩⟩
  · simp
  · simp [hd]
  · simp [hd]
  · simp [hd]
  · rw [h]
    simp [hd]
  · simp [hs, hw, ha]
  · obtain ⟨-, rfl⟩ := execAlloc_ok h hok
    simp [hd, hs, hw, ha]
  · obtain ⟨-, rfl⟩ := execInit_ok h hok
    simp [hd, hs, hw, ha]
  · obtain ⟨-, rfl⟩ := execInsert_ok h hok
    simp [hd, hs, hw, ha]
  · obtain ⟨-, rfl⟩ := execSearch_ok h hok
    simp [hd, hs, hw, ha]
  · obtain ⟨-, rfl⟩ := execRelease_ok h hok
    simp [hd, hs, hw, ha]

/-! ### STATUS and ERRCODE -/

theorem exec_rdreg_status {s : State} {p : Phase} (h : s.phase = p) :
    exec (.rdreg 4#64) s = .next { s with response := some (.okayData (p.code.setWidth 64)) } :=
  exec_rdreg_of_some (h ▸ rfl)

theorem exec_rdreg_errcode {s : State} {c : ErrCode} (h : s.errcode = c) :
    exec (.rdreg 5#64) s = .next { s with response := some (.okayData (c.code.setWidth 64)) } :=
  exec_rdreg_of_some (h ▸ rfl)

/-- Settles O18: each number is the code of its phase or outcome. -/
theorem statusAndErrcodeNumbers : Obligations.StatusAndErrcodeNumbers := by
  unfold Obligations.StatusAndErrcodeNumbers
  intro s
  exact ⟨exec_rdreg_status, exec_rdreg_status, exec_rdreg_status, exec_rdreg_errcode, exec_rdreg_errcode,
    exec_rdreg_errcode, exec_rdreg_errcode, exec_rdreg_errcode, exec_rdreg_errcode⟩

end Sys2Proof.Machine
end

section
/-! The invariant (spec/10_state.md R23, R33, R34, R42, R44, R47, R51): reset meets it and every step keeps it. -/

namespace Sys2Proof.Machine

/-- After any reset there is no index, the memories are empty and no record is readable. -/
theorem State.afterReset_inv (params : Params) (resets : Nat) (pending : List Event) :
    (State.afterReset params resets pending).Inv := by
  obtain ⟨htxt, hbits, hres⟩ := State.afterReset_wf params resets pending
  exact {
    index := ⟨rfl, rfl⟩
    txtCanonical := htxt
    txtInside := fun _ he => by cases he
    bitsCanonical := hbits
    bitsInside := fun _ he => by cases he
    resCanonical := hres
    resInside := fun _ he => by cases he
    resWritten := fun _ hi => absurd hi (Nat.not_lt_zero _)
    rcountBounded := Nat.zero_le _ }

/-- Settles O9. -/
theorem resetStateMeetsInvariant : Obligations.ResetStateMeetsInvariant := by
  unfold Obligations.ResetStateMeetsInvariant
  exact State.afterReset_inv _ _ _

/-! ### What one operation keeps -/

section
variable {s : State} (h : s.Inv)
include h

theorem State.Inv.endCommand (c : ErrCode) : (s.endCommand c).Inv := { h with }

theorem State.Inv.storeText {a : Nat} (ha : a < s.params.txtBytes) (b : Byte) : (s.storeText a b).Inv :=
  { h with
    txtCanonical := State.storeText_wf h.txtCanonical
    txtInside := fun e he => by
      rcases Cells.mem_write he with rfl | he
      · exact ha
      · exact h.txtInside e he }

/-- ALLOC zeroes words and opens an index of a legal capacity that fits. -/
theorem State.Inv.openIndex_zeroBits {c : Word} (hlegal : legalCap c = true)
    (hfit : c.toNat ≤ 2 ^ s.params.capLog2Max) (n : Nat) : ((s.zeroBits n).openIndex c).Inv := by
  obtain ⟨k, h6, -, hk⟩ := (legalCap_iff c).1 hlegal
  have hle : k ≤ s.params.capLog2Max := by
    rw [hk] at hfit
    exact (Nat.pow_le_pow_iff_right (by decide)).1 hfit
  exact { h with
    index := ⟨k, h6, hle, hk, rfl⟩
    bitsCanonical := Cells.wfBits_filter h.bitsCanonical
    bitsInside := fun e he => h.bitsInside e (List.mem_of_mem_filter he) }

/-- INIT makes an allocated index READY. -/
theorem State.Inv.markReady_runGenTable (hp : s.phase = .allocated) (seed : Word) :
    (s.runGenTable seed).markReady.Inv := by
  have hindex := index_ready h.index (by simp [hp])
  exact { h with index := hindex }

/-- INSERT into a live index writes inside the storage, since every slot is a masked one. -/
theorem State.Inv.insertWord (hp : s.phase ≠ .empty) (base len : Nat) : (s.insertWord base len).Inv := by
  have inside (x : Word) : slotWord (x &&& s.mask) < 2 ^ (s.params.capLog2Max - 6) :=
    lt_of_lt_of_le (slot_inside h.index hp x) (capwords_le h.index hp)
  obtain ⟨-, hcanonical, hinside⟩ := State.insertWord_bits base len s (· < 2 ^ (s.params.capLog2Max - 6)) inside
  rw [State.insertWord_eq]
  exact { h with
    bitsCanonical := hcanonical h.bitsCanonical
    bitsInside := hinside h.bitsInside }

/-- SEARCH with a legal bound writes the records below RCOUNT, which does not pass the bound. -/
theorem State.Inv.searchText {max : Word} (hpos : 0 < max.toNat) (hmax : max.toNat ≤ s.params.resEntries)
    (base : Nat) (len : Word) : (s.searchText base len.toNat max).Inv := by
  obtain ⟨hrecords, hcount, keeps⟩ := State.searchText_spec base len.toNat max s len.isLt hpos
  have hrcount : (s.searchText base len.toNat max).rcount.toNat ≤ max.toNat := by
    rw [← State.records_length, hrecords]
    exact List.length_take_le _ _
  have hwritten := keeps.written (fun i hi => absurd hi (Nat.not_lt_zero i))
  rw [hcount] at hwritten
  rw [State.searchText_eq]
  exact { h with
    resCanonical := keeps.rising h.resCanonical
    resInside := fun e he => by
      rcases keeps.inside e he with he | he
      · exact h.resInside e he
      · exact lt_of_lt_of_le he hmax
    resWritten := hwritten
    rcountBounded := hrcount.trans hmax }

theorem State.Inv.closeIndex : s.closeIndex.Inv := { h with index := ⟨rfl, rfl⟩ }

end

/-! ### What a transaction keeps -/

theorem exec_wrtxt_inv {s u : State} {a v : Word} (h : s.Inv) (e : exec (.wrtxt a v) s = .next u) : u.Inv := by
  rcases Nat.lt_or_ge a.toNat s.params.txtBytes with ha | ha
  · rw [exec_wrtxt_of_lt ha] at e
    cases e
    exact { h.storeText ha _ with }
  · rw [exec_wrtxt_of_ge ha] at e
    cases e
    exact { h with }

theorem execAlloc_inv {s u : State} (h : s.Inv) (e : execAlloc s = .next u) : u.Inv := by
  rcases execAlloc_cases s with ⟨-, e'⟩ | ⟨-, -, e'⟩ | ⟨-, -, -, e'⟩ | ⟨-, hlegal, hfit, e'⟩ <;>
    rw [e'] at e <;> cases e
  · exact h.endCommand _
  · exact h.endCommand _
  · exact h.endCommand _
  · exact (h.openIndex_zeroBits hlegal hfit _).endCommand _

theorem execInsert_inv {s u : State} (h : s.Inv) (e : execInsert s = .next u) : u.Inv := by
  rcases execInsert_cases s with ⟨-, e'⟩ | ⟨-, -, e'⟩ | ⟨hp, -, e'⟩ <;> rw [e'] at e <;> cases e
  · exact h.endCommand _
  · exact h.endCommand _
  · exact (h.insertWord (by simp [hp]) _ _).endCommand _

theorem execSearch_inv {s u : State} (h : s.Inv) (e : execSearch s = .next u) : u.Inv := by
  rcases execSearch_cases s with ⟨-, e'⟩ | ⟨-, -, e'⟩ | ⟨-, -, hbound, e'⟩ <;> rw [e'] at e <;> cases e
  · exact h.endCommand _
  · exact h.endCommand _
  · obtain ⟨hpos, hmax⟩ := (State.legalBound_iff_le s s.arg2).1 hbound
    exact (h.searchText hpos hmax _ _).endCommand _

theorem execTransaction_inv {t : Transaction} {s u : State} (h : s.Inv) (e : execTransaction t s = .next u) :
    u.Inv := by
  rcases execTransaction_cases t s u e with ⟨r, rfl⟩ | ⟨v, -, rfl⟩ | ⟨v, -, rfl⟩ | ⟨v, -, rfl⟩ | ⟨a, v, hd, -⟩
    | ⟨-, -, -, ⟨c, rfl⟩ | ⟨-, e', -⟩ | ⟨-, e', hok⟩ | ⟨-, e', -⟩ | ⟨-, e', -⟩ | ⟨-, e', hok⟩⟩
  · exact { h with }
  · exact { h with }
  · exact { h with }
  · exact { h with }
  · rw [execTransaction_of_decode hd] at e
    exact exec_wrtxt_inv h e
  · exact h.endCommand c
  · exact execAlloc_inv h e'
  · obtain ⟨hp, rfl⟩ := execInit_ok e' hok
    exact (h.markReady_runGenTable hp _).endCommand _
  · exact execInsert_inv h e'
  · exact execSearch_inv h e'
  · obtain ⟨-, rfl⟩ := execRelease_ok e' hok
    exact h.closeIndex.endCommand _

/-- Settles O10: an idle step changes nothing, a reset leads to a state that meets the invariant, and a transaction
keeps it (`execTransaction_inv`). -/
theorem stepKeepsInvariant : Obligations.StepKeepsInvariant := by
  unfold Obligations.StepKeepsInvariant
  intro s u h e
  match hpend : s.pending with
  | [] =>
    rw [step_idle hpend] at e
    cases e
    exact h
  | .reset :: rest =>
    rw [step_reset hpend] at e
    cases e
    exact State.afterReset_inv _ _ _
  | .transaction t :: rest =>
    rw [step_transaction hpend] at e
    have accepted : State.Inv { s with pending := rest } := { h with }
    exact execTransaction_inv accepted e

end Sys2Proof.Machine
end

section
/-! INIT's table, single slots, and INSERT (spec/40_hash_table_generator.md R131 to R134, spec/42_insert.md R162, R166,
R172). -/

namespace Sys2Proof.Machine

/-! ### INIT -/

/-- The table INIT leaves is the generator's outputs 65 to 320 (R134). -/
theorem State.runGenTable_table_getElem (seed : Word) (s : State) (b : Fin 256) :
    (s.runGenTable seed).table[b]
      = genOutput ((genNext (xsOf s.params.generator))^[65 + b.val] (seed, genConst)) :=
  genTable_entry _ seed b.val b.isLt

/-- Settles O29, by what the generator's loops compute (`genTable_entry`, `genTable_state`). -/
theorem initFillsTheTable : Obligations.InitFillsTheTable := by
  unfold Obligations.InitFillsTheTable
  intro s hp
  exact ⟨_, exec_init_of_allocated hp, rfl, State.runGenTable_table_getElem s.arg0 s,
    genTable_state (xsOf s.params.generator) s.arg0⟩

/-! ### One slot -/

/-- Settles O35: a slot is bit `p mod 64` of word `p / 64`. -/
theorem setBitSetsOneSlot : Obligations.SetBitSetsOneSlot := by
  unfold Obligations.SetBitSetsOneSlot
  intro s p
  refine ⟨fun w => ?_, rfl, fun q => ?_, fun q => ?_⟩
  · rw [State.bitsWord_setBit, slotWord_eq, slotBit_eq]
  · rw [State.testBit_setBit, Bool.or_eq_true_iff, decide_eq_true_iff]
  · rw [State.testBit_eq, slotWord_eq, slotBit_eq]

/-! ### The empty word -/

/-- The empty word's hash is 0, and slot 1 lies in every index. -/
theorem terminatorSlot_zero {s : State} (hl : s.IndexLegal) (hp : s.phase ≠ .empty) :
    terminatorSlot s.mask 0#64 = 1#64 := by
  have hcap := capbits_ge hl hp
  apply BitVec.eq_of_toNat_eq
  rw [terminatorSlot, and_mask hl hp]
  exact Nat.mod_eq_of_lt (show 1 < s.capbits.toNat by omega)

theorem State.insertWord_zero_bitsWord {s : State} (hl : s.IndexLegal) (hp : s.phase ≠ .empty) (base x : Nat) :
    (s.insertWord base 0).bitsWord x = if x = 0 then s.bitsWord x ||| 2#64 else s.bitsWord x := by
  have hset : (s.insertWord base 0).bitsWord x = (s.setBit (terminatorSlot s.mask 0#64)).bitsWord x := rfl
  rw [hset, terminatorSlot_zero hl hp, State.bitsWord_setBit]
  rfl

theorem exec_insert_empty {s : State} (hp : s.phase = .ready) (h0 : s.arg0.toNat ≤ s.params.txtBytes)
    (h1 : s.arg1 = 0#64) : exec .insert s = .next (State.endCommand .ok (s.insertWord s.arg0.toNat 0)) := by
  have e := execInsert_of_inRange hp h0 (by simp [h1])
  rwa [h1] at e

/-- Settles O39: the loop makes no turn, so TXT is not read and the terminator of hash 0 is the only slot set. -/
theorem emptyWordSetsSlotOne : Obligations.EmptyWordSetsSlotOne := by
  unfold Obligations.EmptyWordSetsSlotOne
  intro s hl hready h0 h1
  have hp : s.phase ≠ .empty := by simp [hready]
  have hword := State.insertWord_zero_bitsWord hl hp s.arg0.toNat
  exact ⟨_, exec_insert_empty hready h0 h1, rfl, rfl, (hword 0).trans (if_pos rfl),
    fun x hx => (hword x).trans (if_neg hx), fun m => exec_insert_empty (s := { s with txt := m }) hready h0 h1⟩

/-! ### Sequences of INSERTs -/

/-- INSERT of `(base, len)` in range: what it leaves of a READY state is the slots of one more word (R171). -/
theorem exec_insert_at {s : State} {o : Word × Word} (h : s.Inv) (hp : s.phase = .ready)
    (hrange : o.1.toNat ≤ s.params.txtBytes ∧ o.2.toNat ≤ s.params.txtBytes - o.1.toNat) :
    ∃ u, exec .insert { s with arg0 := o.1, arg1 := o.2 } = .next u ∧ u.Inv ∧ u.phase = .ready
      ∧ u.params = s.params ∧ u.table = s.table ∧ u.mask = s.mask ∧ u.wordAt = s.wordAt
      ∧ ∀ p : Word, u.testBit p = true ↔ s.testBit p = true ∨ p ∈ insertSlots s.table s.mask (s.wordAt o) := by
  have hs : State.Inv { s with arg0 := o.1, arg1 := o.2 } := { h with }
  have e := execInsert_of_inRange (s := { s with arg0 := o.1, arg1 := o.2 }) hp hrange.1 hrange.2
  refine ⟨_, e, execInsert_inv hs e, by simp [hp], by simp, by simp, by simp, ?wordAt, fun p => ?testBit⟩
  case wordAt =>
    funext operands
    exact State.textBytes_congr (by simp) (by simp) _ _
  case testBit =>
    rw [State.testBit_congr (State.endCommand_bits _ _), State.insertWord_testBit _ _ _ o.2.isLt,
      Bool.or_eq_true_iff, decide_eq_true_iff]
    rfl

/-- In-range INSERTs succeed, keep the invariant, and set the slots of their words and no other. -/
theorem State.insertAll_spec (ops : List (Word × Word)) {s : State} (h : s.Inv) (hp : s.phase = .ready)
    (hrange : ∀ o ∈ ops, o.1.toNat ≤ s.params.txtBytes ∧ o.2.toNat ≤ s.params.txtBytes - o.1.toNat) :
    ∃ t, s.insertAll ops = .next t ∧ t.Inv
      ∧ ∀ p : Word, t.testBit p = true ↔
          s.testBit p = true ∨ ∃ w ∈ ops.map s.wordAt, p ∈ insertSlots s.table s.mask w := by
  induction ops generalizing s with
  | nil => exact ⟨s, rfl, h, by simp⟩
  | cons o rest ih =>
    obtain ⟨ho, hrest⟩ := List.forall_mem_cons.1 hrange
    obtain ⟨u, e, hu, hup, hparams, htable, hmask, hword, hbit⟩ := exec_insert_at h hp ho
    obtain ⟨t, et, ht, htbit⟩ := ih hu hup (by rwa [hparams])
    refine ⟨t, ?_, ht, fun p => ?_⟩
    · rw [State.insertAll, e]
      exact et
    · rw [htbit, hbit, htable, hmask, hword, or_assoc, List.map_cons, List.exists_mem_cons_iff]

/-- A state that meets the invariant has no word beyond the slots. -/
theorem State.Inv.bits_lt {s : State} (h : s.Inv) : ∀ e ∈ s.bits, e.1 < 2 ^ 58 := by
  intro e he
  have hcap := s.params.capLog2Max_le
  exact lt_of_lt_of_le (h.bitsInside e he) (Nat.pow_le_pow_right (by decide) (by omega))

/-- Settles O40: by `State.insertAll_spec` both runs set the slots of the same set of words, and bit arrays that test
alike are equal. -/
theorem insertsDependOnTheSetOfWords : Obligations.InsertsDependOnTheSetOfWords := by
  unfold Obligations.InsertsDependOnTheSetOfWords
  intro s s' ops ops' h h' hp hp' htable hmask hbits hrange hrange' hwords
  obtain ⟨t, e, ht, hbit⟩ := State.insertAll_spec ops h hp hrange
  obtain ⟨t', e', ht', hbit'⟩ := State.insertAll_spec ops' h' hp' hrange'
  have alike (p : Word) : t'.testBit p = t.testBit p := by
    rw [Bool.eq_iff_iff, hbit, hbit', htable, hmask, State.testBit_congr hbits]
    simp only [hwords]
  exact ⟨t, t', e, e', bits_eq_of_testBit ht'.bitsCanonical ht.bitsCanonical ht'.bits_lt ht.bits_lt alike, hbit,
    fun p hset => (hbit p).2 (.inl hset)⟩

end Sys2Proof.Machine
end

section
/-! The results of SEARCH (spec/43_search.md R190, R192): the records are the first candidates, and an inserted word is
one of them. -/

namespace Sys2Proof.Machine

/-! ### The records after SEARCH -/

section
variable {s : State} {base : Nat} {len max : Word} (hmax : 1 ≤ max.toNat)
include hmax

/-- RCOUNT is the lesser of the bound and the number of candidates. -/
theorem State.searchText_rcount :
    (s.searchText base len.toNat max).rcount.toNat
      = min max.toNat (s.candidates (s.textBytes base len.toNat)).length := by
  obtain ⟨hrecords, -, -⟩ := State.searchText_spec base len.toNat max s len.isLt hmax
  rw [← State.records_length, hrecords, List.length_take, List.length_map]

/-- Record `i` is that of candidate `i`. -/
theorem State.searchText_record {i : Nat} (hi : i < (s.searchText base len.toNat max).rcount.toNat) :
    ∃ c, (s.candidates (s.textBytes base len.toNat))[i]? = some c
      ∧ (s.searchText base len.toNat max).record i = s.candidateRecord (s.textBytes base len.toNat) c.1 c.2 := by
  obtain ⟨hrecords, -, -⟩ := State.searchText_spec base len.toNat max s len.isLt hmax
  have hcount := State.searchText_rcount (s := s) (base := base) (len := len) hmax
  have hlt : i < (s.candidates (s.textBytes base len.toNat)).length := by omega
  refine ⟨_, List.getElem?_eq_getElem hlt, ?_⟩
  have hget := congrArg (·[i]?) hrecords
  simpa [State.records, hi, List.getElem?_take, show i < max.toNat by omega, hlt] using hget

/-- SEARCH writes no record from RCOUNT on (R47). -/
theorem State.searchText_record_above {i : Nat} (hi : (s.searchText base len.toNat max).rcount.toNat ≤ i) :
    (s.searchText base len.toNat max).record i = s.record i := by
  obtain ⟨-, hcount, keeps⟩ := State.searchText_spec base len.toNat max s len.isLt hmax
  exact keeps.above i (by rwa [hcount])

end

/-- The start and the length of a candidate's record as numbers: neither wraps. -/
theorem State.candidateRecord_toNat {s : State} {text : List Byte} {c : Nat × Nat} (hc : c ∈ s.candidates text)
    (htext : text.length < 2 ^ 64) :
    (s.candidateRecord text c.1 c.2).start.toNat = c.1 ∧ (s.candidateRecord text c.1 c.2).length.toNat = c.2 := by
  obtain ⟨-, -, hend, -⟩ := (State.mem_candidates s text c).1 hc
  exact ⟨Nat.mod_eq_of_lt (by omega), Nat.mod_eq_of_lt (by omega)⟩

@[simp] theorem State.record_endCommand (e : ErrCode) (s : State) (i : Nat) :
    (s.endCommand e).record i = s.record i := rfl

/-- A text without bytes has no candidate. -/
@[simp] theorem State.candidates_nil (s : State) : s.candidates [] = [] := rfl

/-- What SEARCH changes after its checks. -/
theorem State.endCommand_searchText_eq (base len : Nat) (max : Word) (s : State) :
    State.endCommand .ok (s.searchText base len max) =
      { s with
        res := (s.searchText base len max).res
        rcount := (s.searchText base len max).rcount
        errcode := .ok
        response := some .okay
        scH := (s.searchText base len max).scH
        scS := (s.searchText base len max).scS
        scLen := (s.searchText base len max).scLen
        scN := (s.searchText base len max).scN } := by
  conv_lhs => rw [State.searchText_eq]
  rfl

/-- Settles O41: record `i` is that of candidate `i` (`State.searchText_record`), and no candidate is listed twice. -/
theorem searchReturnsTheFirstCandidates : Obligations.SearchReturnsTheFirstCandidates := by
  unfold Obligations.SearchReturnsTheFirstCandidates
  intro s hp h0 h1 h2 h3 text
  have htext : text.length = s.arg1.toNat := State.textBytes_length ..
  have hwrap : text.length < 2 ^ 64 := htext ▸ s.arg1.isLt
  refine ⟨_, execSearch_of_legal hp h0 h1 h2 h3, State.endCommand_searchText_eq _ _ _ s,
    (State.searchText_spec _ _ _ s s.arg1.isLt h2).1, State.searchText_rcount h2,
    fun i hi => State.searchText_record_above h2 hi, fun i hi => ?inside, fun i hi j hj hstart hlength => ?distinct,
    fun hempty => State.searchText_rcount_of_no_candidates h2 ?empty⟩
  case inside =>
    obtain ⟨c, hc, hrecord⟩ := State.searchText_record h2 hi
    have hmem := List.mem_of_getElem? hc
    obtain ⟨hstart, hlength⟩ := State.candidateRecord_toNat hmem hwrap
    obtain ⟨-, hpos, hend, -⟩ := (State.mem_candidates s text c).1 hmem
    rw [State.record_endCommand, hrecord, hstart, hlength, ← htext]
    exact ⟨hpos, hend⟩
  case distinct =>
    obtain ⟨c, hc, hrecord⟩ := State.searchText_record h2 hi
    obtain ⟨d, hd, hrecord'⟩ := State.searchText_record h2 hj
    obtain ⟨hcstart, hclength⟩ := State.candidateRecord_toNat (List.mem_of_getElem? hc) hwrap
    obtain ⟨hdstart, hdlength⟩ := State.candidateRecord_toNat (List.mem_of_getElem? hd) hwrap
    rw [State.record_endCommand, State.record_endCommand, hrecord, hrecord'] at hstart hlength
    have hcd : c = d := Prod.ext (by rw [← hcstart, ← hdstart, hstart]) (by rw [← hclength, ← hdlength, hlength])
    have hlt := (List.getElem?_eq_some_iff.1 hc).1
    exact (List.getElem?_inj hlt (State.candidates_nodup s text)).1 (by rw [hc, hd, hcd])
  case empty => rw [hempty]; exact State.candidates_nil s

/-! ### Inserted words -/

/-- A span inside the text is a candidate when every slot of its `S(w)` is set. -/
theorem State.isCandidate_of_insertSlots {s : State} {text : List Byte} {start m : Nat}
    (hend : start + m ≤ text.length)
    (hset : ∀ p ∈ insertSlots s.table s.mask (span text start m), s.testBit p = true) :
    s.isCandidate text start m = true := by
  have hlen : (span text start m).length = m := by
    rw [span, List.length_take, List.length_drop]
    omega
  have hprefix {j : Nat} (hj : j < m) : (span text start m).take (j + 1) = span text start (j + 1) := by
    rw [span, List.take_take, Nat.min_eq_left hj, span]
  rw [State.isCandidate, Bool.and_eq_true, List.all_eq_true]
  refine ⟨fun j hj => hset _ (List.mem_append_left _ (List.mem_map.2 ⟨j, by rwa [hlen], ?_⟩)),
    hset _ (terminatorSlot_mem_insertSlots ..)⟩
  rw [hprefix (List.mem_range.1 hj)]

theorem State.mem_candidates_of_insertSlots {s : State} {text : List Byte} {start m : Nat} (hm : 1 ≤ m)
    (hend : start + m ≤ text.length)
    (hset : ∀ p ∈ insertSlots s.table s.mask (span text start m), s.testBit p = true) :
    (start, m) ∈ s.candidates text :=
  (State.mem_candidates s text _).2
    ⟨show start < text.length by omega, hm, hend, State.isCandidate_of_insertSlots hend hset⟩

/-- After INSERT every slot of its word is set. -/
theorem State.insertWord_testBit_of_mem {s : State} {base : Nat} {len : Word} {p : Word}
    (hmem : p ∈ insertSlots s.table s.mask (s.textBytes base len.toNat)) :
    (s.insertWord base len.toNat).testBit p = true := by
  rw [State.insertWord_testBit _ _ _ len.isLt, decide_eq_true hmem, Bool.or_true]

/-- Settles O44: the slots INSERT sets are those that make the word's occurrences candidates. -/
theorem insertedWordIsACandidate : Obligations.InsertedWordIsACandidate := by
  unfold Obligations.InsertedWordIsACandidate
  intro s hp h0 h1 hm
  refine ⟨_, execInsert_of_inRange hp h0 h1, rfl, fun v text start htable hmask hbits hend hspan => ?_⟩
  rw [State.endCommand_table, State.insertWord_table] at htable
  rw [State.endCommand_mask, State.insertWord_mask] at hmask
  refine State.mem_candidates_of_insertSlots hm hend fun p hmem => hbits p ?_
  rw [htable, hmask, hspan] at hmem
  exact State.insertWord_testBit_of_mem hmem

/-- The candidates from one start offset, by rising length. -/
def State.candidatesAt (s : State) (text : List Byte) (start : Nat) : List (Nat × Nat) :=
  ((List.range (text.length - start)).filter (fun j => s.isCandidate text start (j + 1))).map (fun j => (start, j + 1))

theorem State.candidatesAt_length_le (s : State) (text : List Byte) (start : Nat) :
    (s.candidatesAt text start).length ≤ text.length := by
  rw [State.candidatesAt, List.length_map]
  have hfilter := List.length_filter_le (fun j => s.isCandidate text start (j + 1)) (List.range (text.length - start))
  rw [List.length_range] at hfilter
  omega

theorem State.mem_candidatesAt {s : State} {text : List Byte} {c : Nat × Nat} (h : c ∈ s.candidates text) :
    c ∈ s.candidatesAt text c.1 := by
  obtain ⟨-, hpos, hend, hcand⟩ := (State.mem_candidates s text c).1 h
  have hsucc : c.2 - 1 + 1 = c.2 := Nat.sub_add_cancel hpos
  refine List.mem_map.2 ⟨c.2 - 1, List.mem_filter.2 ⟨List.mem_range.2 (by omega), ?_⟩, ?_⟩
  · rwa [hsucc]
  · rw [hsucc]

/-- The candidates of a nonempty text begin with those from offset 0. -/
theorem State.candidatesAt_zero_prefix (s : State) {text : List Byte} (h : 0 < text.length) :
    s.candidatesAt text 0 <+: s.candidates text := by
  have hall : s.candidates text = (List.range text.length).flatMap (s.candidatesAt text) := rfl
  rw [hall, ← Nat.sub_add_cancel h, List.range_succ_eq_map, List.flatMap_cons]
  exact List.prefix_append _ _

/-- A bound of at least the text's length does not cut off a candidate from offset 0. -/
theorem State.mem_take_candidates {s : State} {text : List Byte} {m k : Nat} (hmem : (0, m) ∈ s.candidates text)
    (hk : text.length ≤ k) : (0, m) ∈ (s.candidates text).take k := by
  obtain ⟨hpos, -⟩ := (State.mem_candidates s text (0, m)).1 hmem
  have hfirst := (s.candidatesAt_zero_prefix hpos).take k
  rw [List.take_of_length_le ((s.candidatesAt_length_le text 0).trans hk)] at hfirst
  exact hfirst.mem (State.mem_candidatesAt hmem)

theorem span_whole {text : List Byte} {m : Nat} (h : text.length = m) : span text 0 m = text :=
  List.take_of_length_le h.le

/-- The record of a text that is a candidate as a whole. -/
theorem State.candidateRecord_whole (s : State) {text : List Byte} {m : Word} (h : text.length = m.toNat) :
    s.candidateRecord text 0 m.toNat = { start := 0#64, length := m, hash := wordHash s.table text } := by
  rw [State.candidateRecord, span_whole h, BitVec.ofNat_toNat, BitVec.setWidth_eq]

/-- SEARCH of a text whose slots are all set, with a bound of at least its length, records the text as a whole. -/
theorem State.whole_mem_searchText_records {s : State} {base : Nat} {len max : Word} (hlen : 1 ≤ len.toNat)
    (hle : len.toNat ≤ max.toNat)
    (hset : ∀ p ∈ insertSlots s.table s.mask (s.textBytes base len.toNat), s.testBit p = true) :
    { start := 0#64, length := len, hash := wordHash s.table (s.textBytes base len.toNat) }
      ∈ (s.searchText base len.toNat max).records := by
  obtain ⟨hrecords, -, -⟩ := State.searchText_spec base len.toNat max s len.isLt (hlen.trans hle)
  have htext : (s.textBytes base len.toNat).length = len.toNat := State.textBytes_length ..
  have hcand : (0, len.toNat) ∈ s.candidates (s.textBytes base len.toNat) :=
    State.mem_candidates_of_insertSlots hlen (by omega) (by rwa [span_whole htext])
  rw [hrecords, ← List.map_take, ← State.candidateRecord_whole s htext]
  exact List.mem_map_of_mem (State.mem_take_candidates hcand (htext.trans_le hle))

/-- Settles O45: INSERT sets the word's slots, and SEARCH then records the word as a whole. -/
theorem insertThenSearchFindsTheWord : Obligations.InsertThenSearchFindsTheWord := by
  unfold Obligations.InsertThenSearchFindsTheWord
  intro s k hp h0 h1 hm hk hmax
  have hinsert := execInsert_of_inRange hp h0 h1
  rw [State.endCommand_insertWord_eq] at hinsert
  refine ⟨_, _, hinsert, execSearch_of_legal hp h0 h1 (hm.trans hk) hmax, rfl, ?_⟩
  exact State.whole_mem_searchText_records hm hk fun p hmem => State.insertWord_testBit_of_mem hmem

end Sys2Proof.Machine
end
